-- ==== Sys2Proof/Word.lean ====
section
/-! DEFINITION. The words of the colour codec block and the plainest arithmetic on them (spec/00_scope.md R8–R10).
Every value is unsigned and bit 0 is the least significant bit (R8), so a word is a `BitVec` of its stated width. -/

namespace Sys2Proof

/-- One byte of a buffer, one colour channel, or one palette index (R7, R8). -/
abbrev Byte := BitVec 8

/-- A 32-bit word: `CMD`, `SRC_LEN` or `STATUS` (R27, R28, R60). -/
abbrev Word := BitVec 32

/-- One RGB565 pixel, `{r:5, g:6, b:5}` (R12, R100). -/
abbrev Rgb565 := BitVec 16

/-- One RGB888 pixel, `{R:8, G:8, B:8}`, 24 bits and no more (R12, R24). -/
abbrev Rgb888 := BitVec 24

end Sys2Proof
end

