-- ==== Sys2Proof/Config.lean ====
section
/-! DEFINITION. The implementation parameters of the block (spec/00_scope.md R7). The spec leaves no VALUE open that an
instruction could produce (spec/93_implementation_defined.md), so there is no free value here. -/

namespace Sys2Proof.Config

/-- `LEN_WIDTH`, the width of `SRC_LEN` (R7, R60; decision D14). DESIGN CHOICE (log entry 6): the spec leaves the
parameter open with the default 32, and the model is the block with that default. -/
abbrev lenWidth : Nat := 32

/-- Bytes per RGB565 pixel in a buffer (R7, R46). -/
abbrev stride565 : Nat := 2

/-- Bytes per RGB888 pixel in a buffer (R7, R46). -/
abbrev stride888 : Nat := 3

/-- Width of the palette count (R7, R62). -/
abbrev countWidth : Nat := 16

end Sys2Proof.Config
end

