-- ==== Sys2Proof/Syntax.lean ====
section
/-! DEFINITION. The four commands (spec/30_encoding.md R64), the request that carries one (R60), and the lines of the
spec's assembler (R70, R71). -/

namespace Sys2Proof

/-- The command set: one constructor per row of the opcode map (R64). `PALCHK`'s one immediate operand is its palette
count (R62); the other commands have no operand in `CMD`. Every command also has the request's `SRC_LEN` and `SRC`,
which are data of the transaction and not of the command word (R63, R68). -/
inductive Instr where
  /-- Initialise the three tables (R86). -/
  | lutinit
  /-- Expand an RGB565 buffer to RGB888 (R103). -/
  | expand
  /-- Pack an RGB888 buffer into RGB565 (R122). -/
  | compact
  /-- Check that every index is below the palette count (R141). -/
  | palchk (count : BitVec 16)
  deriving DecidableEq, Repr

/-- Why bytes are no command (R65, and R60 for a descriptor that is cut short). -/
inductive Illegal where
  /-- `RSV ≠ 0`: R65 item 2. -/
  | reservedField
  /-- `OPC` is 0x00 or 0x05 … 0xFF: R65 item 1. -/
  | reservedOpcode
  /-- `IMM16 ≠ 0` on a command other than `PALCHK`: R65 item 3. -/
  | reservedImmediate
  /-- Fewer than the eight bytes of a descriptor (R60, R66). -/
  | shortDescriptor
  deriving DecidableEq, Repr

/-- A request: the two descriptor words and the payload, `SRC[0]` first (R60). -/
structure Request where
  /-- Word 0, the command. -/
  cmd    : Word
  /-- Word 1, the number of payload bytes the descriptor announces. -/
  srcLen : Word
  /-- The payload. -/
  src    : List Byte
  deriving DecidableEq, Repr

/-- One statement of the spec's assembler (R70). Numbers are as written, before any range check. -/
inductive AsmLine where
  | lutinit
  | expand  (bytes : List Nat)
  | compact (bytes : List Nat)
  | palchk  (count : Nat) (bytes : List Nat)
  /-- The raw directive `.cmd word0, [..]`, which passes `word0` through unchecked (R71). -/
  | cmd     (word0 : Nat) (bytes : List Nat)
  deriving DecidableEq, Repr

end Sys2Proof
end

