-- ==== Sys2Proof/WellFormed.lean ====
section
/-! DEFINITION. What is well-formed, as checks that run. An `Instr` needs no check: its only field is a 16-bit count, so
no term of the type is outside what an encoding can hold. The check on a request (R67) is `Request.wellFormed` in
Machine/Ops.lean. Assembler lines hold numbers as written, and have a check here (R70). -/

namespace Sys2Proof

/-- A byte list of the assembler: each value 0 to 255, and no longer than `SRC_LEN` can count (R70, R60). -/
def asmBytesWellFormed (bytes : List Nat) : Bool :=
  bytes.all (· < 256) && decide (bytes.length < 2 ^ Config.lenWidth)

/-- The lines the assembler accepts: a palette count in 0 to 65535, byte values in 0 to 255, a raw word of 32 bits
(R70: "`count` outside 0 to 65535 is an assembly error"). -/
def AsmLine.wellFormed : AsmLine → Bool
  | .lutinit => true
  | .expand bytes => asmBytesWellFormed bytes
  | .compact bytes => asmBytesWellFormed bytes
  | .palchk count bytes => decide (count < 2 ^ Config.countWidth) && asmBytesWellFormed bytes
  | .cmd word0 bytes => decide (word0 < 2 ^ 32) && asmBytesWellFormed bytes

end Sys2Proof
end

