-- ==== Sys2Proof/Decode.lean ====
section
/-! DEFINITION. Decoding and encoding of the command word and of the eight-byte descriptor (spec/30_encoding.md). -/

namespace Sys2Proof

/-! ## The command word -/

/-- `OPC = CMD[7:0]` (R61). -/
def opcField (cmd : Word) : BitVec 8 := cmd.extractLsb' 0 8

/-- `RSV = CMD[15:8]`, which must be 0 (R61). -/
def rsvField (cmd : Word) : BitVec 8 := cmd.extractLsb' 8 8

/-- `IMM16 = CMD[31:16]` (R61, R62). -/
def immField (cmd : Word) : BitVec 16 := cmd.extractLsb' 16 16

/-- A command that takes no immediate: legal only with `IMM16 = 0` (R65 item 3). -/
def withoutImmediate (imm : BitVec 16) (i : Instr) : Except Illegal Instr :=
  if imm = 0#16 then .ok i else .error .reservedImmediate

/-- The opcode map on a command word whose `RSV` is 0 (R64, R68). -/
def decodeOpcode (opc : BitVec 8) (imm : BitVec 16) : Except Illegal Instr :=
  if opc = 0x01#8 then withoutImmediate imm .lutinit
  else if opc = 0x02#8 then withoutImmediate imm .expand
  else if opc = 0x03#8 then withoutImmediate imm .compact
  else if opc = 0x04#8 then .ok (.palchk imm)
  else .error .reservedOpcode

/-- The decoder, total on every 32-bit `CMD` (R68). -/
def decode (cmd : Word) : Except Illegal Instr :=
  if rsvField cmd ≠ 0#8 then .error .reservedField
  else decodeOpcode (opcField cmd) (immField cmd)

/-! ## The descriptor as bytes

The descriptor words are 32-bit values; a transport that sends them as bytes sends them least significant first
(R60, R69, decision D15). -/

/-- A 32-bit word from its four bytes, least significant first. -/
def wordOfBytes (b0 b1 b2 b3 : Byte) : Word := b3 ++ b2 ++ b1 ++ b0

/-- The two words of a descriptor, `CMD` first, and the bytes that follow it (R60); none when it is cut short. -/
def readDescriptor : List Byte → Option (Word × Word × List Byte)
  | c0 :: c1 :: c2 :: c3 :: l0 :: l1 :: l2 :: l3 :: rest =>
    some (wordOfBytes c0 c1 c2 c3, wordOfBytes l0 l1 l2 l3, rest)
  | _ => none

/-- Decode the command at the head of a byte sequence: the command, `SRC_LEN`, and the bytes after the descriptor.
Total on any bytes; a sequence that holds no command is refused by name (R65, R66). -/
def decodeBytes (bytes : List Byte) : Except Illegal (Instr × Word × List Byte) :=
  match readDescriptor bytes with
  | none => .error .shortDescriptor
  | some (cmd, srcLen, rest) =>
    match decode cmd with
    | .error e => .error e
    | .ok i => .ok (i, srcLen, rest)

/-- The request a transport's bytes carry: the descriptor, then exactly the payload bytes that follow (R60). -/
def readRequest (bytes : List Byte) : Option Request :=
  match readDescriptor bytes with
  | none => none
  | some (cmd, srcLen, rest) => some ⟨cmd, srcLen, rest⟩

/-- The low `8·n` bits of a number as `n` bytes, least significant first. -/
def bytesOfNat : Nat → Nat → List Byte
  | 0, _ => []
  | n + 1, w => BitVec.ofNat 8 w :: bytesOfNat n (w / 256)

/-- The instruction the decoder reads from the bits `w` of an opcode-table row of `nbits` bits: bit 0 is `CMD[0]`, the
bits from 32 on are `SRC_LEN`, and every bit of the descriptor above `nbits` is 0. -/
def decodeTableWord (nbits w : Nat) : Option Instr :=
  match decodeBytes (bytesOfNat 8 (w % 2 ^ nbits)) with
  | .ok (i, _, _) => some i
  | .error _ => none

/-- The request whose descriptor has the bits `w` (the bits above `nbits` zero), with a payload of as many zero bytes as
its `SRC_LEN` announces, so that it is well-formed (R60, R67). -/
def requestOfTableWord (nbits w : Nat) : Request :=
  let bits := w % 2 ^ nbits
  let srcLen := BitVec.ofNat 32 (bits / 2 ^ 32)
  ⟨BitVec.ofNat 32 bits, srcLen, List.replicate srcLen.toNat 0#8⟩

/-! ## The encoder -/

/-- The command word with `IMM16`, `RSV = 0` and `OPC` (R61). -/
def commandWord (imm : BitVec 16) (opc : BitVec 8) : Word := imm ++ 0#8 ++ opc

/-- The encoder, row by row from the opcode map (R64). -/
def encode : Instr → Word
  | .lutinit => commandWord 0#16 0x01#8
  | .expand => commandWord 0#16 0x02#8
  | .compact => commandWord 0#16 0x03#8
  | .palchk count => commandWord count 0x04#8

/-- The four bytes of a word, least significant first (R69, decision D15). -/
def bytesOfWord (w : Word) : List Byte :=
  [w.extractLsb' 0 8, w.extractLsb' 8 8, w.extractLsb' 16 8, w.extractLsb' 24 8]

/-- A request as a transport's bytes: `CMD`, `SRC_LEN`, then the payload (R60, decision D15). -/
def Request.bytes (r : Request) : List Byte := bytesOfWord r.cmd ++ bytesOfWord r.srcLen ++ r.src

end Sys2Proof
end

