-- ==== Sys2Proof/Machine/State.lean ====
section
/-! DEFINITION. The state of the block and of its host's side of the interface, why a step can stop, and the state
after reset (spec/10_state.md, spec/70_reset_and_hazards.md). -/

namespace Sys2Proof.Machine

/-- A table file with exactly `2^n` entries, indexed by an `n`-bit value (R22–R24). The entries are held as the two
halves of the index range, split at the index's top bit, so that there is no table with an entry missing or one too
many, equal tables are equal data, and reading one entry visits `n` halves. DESIGN CHOICE (log entry 5): the spec makes
only the contents architectural (R101, decision D24). -/
inductive Lut (α : Type) : Nat → Type where
  /-- The one entry of a table with a 0-bit index. -/
  | entry (value : α) : Lut α 0
  /-- The entries whose index has top bit 0, and those whose index has top bit 1. -/
  | halves {n : Nat} (lower upper : Lut α n) : Lut α (n + 1)
  deriving DecidableEq, Repr

/-- The error codes the block produces (R161); codes 4 to 15 do not exist here, as the block never produces them. -/
inductive ErrCode where
  | ok
  | invalidLength
  | notReady
  | illegalCmd
  deriving DecidableEq, Repr

/-- A response: the status word and the destination bytes, `DST[0]` first (R5, R69). `OUT_LEN` is `dst.length`. -/
structure Response where
  status : Word
  dst    : List Byte
  deriving DecidableEq, Repr

/-- What the outside world can do to the block, one action at a time (R5, R49, R180, R181). Log entries 1 to 3. -/
inductive HostAction where
  /-- Issue a request and wait for its response (R49). -/
  | issue (r : Request)
  /-- Issue a request and assert reset before its response (R181). -/
  | abort (r : Request)
  /-- Assert reset while no transaction is in flight (R180). -/
  | assertReset
  deriving DecidableEq, Repr

/-- The machine. The first four fields are the block's persistent state, exactly the four items of R20; `inFlight` is the
transaction-scoped state (R29, R30); the last two are the host's side of the interface, not the block's (log entry 1). -/
structure State where
  /-- `LUT_READY`: the tables have been initialised since reset (R21). -/
  lutReady  : Bool
  /-- `LUT5`, 256 entries of 5 bits (R22); `none` while it holds no value, as R20 and R25 say. -/
  lut5      : Option (Lut (BitVec 5) 8)
  /-- `LUT6`, 256 entries of 6 bits (R23); `none` while it holds no value. -/
  lut6      : Option (Lut (BitVec 6) 8)
  /-- `LUT888`, 65536 entries of 24 bits (R24); `none` while it holds no value. -/
  lut888    : Option (Lut Rgb888 16)
  /-- The transaction in flight, with its descriptor and payload (R27, R29, R30); `none` between transactions. -/
  inFlight  : Option Request
  /-- What the host will do next, in issue order (R5, R49). -/
  host      : List HostAction
  /-- The responses the host has received, oldest first (R5, R69). -/
  responses : List Response
  deriving DecidableEq, Repr

/-- Why the machine could stop with a fault: it never does. The block does not trap; every error of the spec ends its
transaction with a code in the response and the block goes on (R160, R166). -/
inductive Fault
  deriving DecidableEq, Repr

/-- Why a step has no meaning. -/
inductive Refusal where
  /-- Raised by `exec`'s arm of a command without a meaning; no arm raises it. Safe: the model stops. -/
  | notModelled (mnemonic : String)
  /-- Raised when the payload does not hold exactly `SRC_LEN` bytes: "a model refuses it (no step)" (R67, decision D25).
  Safe: the model stops where the spec gives no meaning (log entry 7). -/
  | illFormedRequest
  /-- Raised by a meaning that is run while no transaction is in flight; `step` never does so. Safe (log entry 7). -/
  | noRequest
  /-- Raised by a read of a table that holds no value, which the spec's I4 refuses (R25). No state that meets
  `State.Inv` raises it. Safe: the model stops (log entry 4). -/
  | absentTable
  deriving DecidableEq, Repr

/-- The machine right after reset (R30, R180): not ready, no table holds a value, nothing in flight, and the host has
neither planned an action nor received a response (DESIGN CHOICE for the last two, log entry 1). -/
def State.reset : State where
  lutReady  := false
  lut5      := none
  lut6      := none
  lut888    := none
  inFlight  := none
  host      := []
  responses := []

end Sys2Proof.Machine
end

