-- ==== Sys2Proof/Machine/Flags.lean ====
section
/-! DEFINITION. The response status word, the block's only condition code (spec/10_state.md R28), and the error codes in
it (spec/60_exceptions.md R161). -/

namespace Sys2Proof.Machine

/-- The code of an error in `STATUS[3:0]` (R161). -/
def ErrCode.bits : ErrCode → BitVec 4
  | .ok => 0
  | .invalidLength => 1
  | .notReady => 2
  | .illegalCmd => 3

/-- The error a code stands for; none for the reserved codes 4 to 15, which "a model must refuse to interpret" (R161). -/
def ErrCode.ofBits? (code : BitVec 4) : Option ErrCode :=
  if code = 0#4 then some .ok
  else if code = 1#4 then some .invalidLength
  else if code = 2#4 then some .notReady
  else if code = 3#4 then some .illegalCmd
  else none

/-- `STATUS = zext_32({READY:1, RESULT:1, 0:4, ERR:4})` (R28). -/
def statusWord (ready result : Bool) (err : ErrCode) : Word :=
  (BitVec.ofBool ready ++ BitVec.ofBool result ++ 0#4 ++ err.bits).setWidth 32

/-- The `ERR` field of a response, read as an error code; none when the code is reserved (R28, R161). -/
def Response.err? (r : Response) : Option ErrCode := ErrCode.ofBits? (r.status.extractLsb' 0 4)

/-- The `RESULT` field of a response (R28). -/
def Response.result (r : Response) : Bool := r.status.getLsbD 8

/-- The `READY` field of a response (R28). -/
def Response.ready (r : Response) : Bool := r.status.getLsbD 9

/-- A response as a transport's bytes: `STATUS` least significant byte first, then `DST` (R69, decision D15). -/
def Response.bytes (r : Response) : List Byte := bytesOfWord r.status ++ r.dst

end Sys2Proof.Machine
end

