-- ==== Sys2Proof/Machine/Operands.lean ====
section
/-! DEFINITION. How a command's operands are read from and written to the buffers: the byte orders (spec/20_memory.md
R41–R43), the bit-field decoder and its inverse (R100, R121), and the range check of one index (R140). -/

namespace Sys2Proof.Machine

/-! ## The spec's two buffer primitives (R11) -/

/-- `MemRead(i, n)`: the `n` source bytes from index `i`, combined little-endian; none past the end of the buffer. -/
def memRead (src : List Byte) (i : Nat) : Nat → Option Nat
  | 0 => some 0
  | n + 1 =>
    match src[i]?, memRead src (i + 1) n with
    | some b, some v => some (b.toNat + 256 * v)
    | _, _ => none

/-- The bytes `MemWrite(j, 3, v)` puts at `DST[j] … DST[j+2]`, most significant first: red, green, blue (R43). -/
def bytes888 (v : Rgb888) : List Byte := [v.extractLsb' 16 8, v.extractLsb' 8 8, v.extractLsb' 0 8]

/-! ## Pixels of a buffer -/

/-- An RGB565 word from its two bytes, least significant first: `(hi << 8) | lo` (R41). -/
def word565 (lo hi : Byte) : Rgb565 := hi ++ lo

/-- The bytes of an RGB565 word in a buffer, least significant first (R42). -/
def bytes565 (w : Rgb565) : List Byte := [w.extractLsb' 0 8, w.extractLsb' 8 8]

/-- The RGB565 pixels of a source buffer: pixel `i` is `MemRead(2·i, 2)` (R41). A tail shorter than a pixel is no pixel;
a buffer with one is rejected before it is read (R46). -/
def pixels565 : List Byte → List Rgb565
  | lo :: hi :: rest => word565 lo hi :: pixels565 rest
  | _ => []

/-- The RGB888 pixels of a source buffer, each in the order red, green, blue (R43). -/
def pixels888 : List Byte → List (Byte × Byte × Byte)
  | red :: green :: blue :: rest => (red, green, blue) :: pixels888 rest
  | _ => []

/-! ## Fields of a pixel -/

/-- The red field `w[15:11]` (R100). -/
def red5 (w : Rgb565) : BitVec 5 := w.extractLsb' 11 5

/-- The green field `w[10:5]` (R100). -/
def green6 (w : Rgb565) : BitVec 6 := w.extractLsb' 5 6

/-- The blue field `w[4:0]` (R100). -/
def blue5 (w : Rgb565) : BitVec 5 := w.extractLsb' 0 5

/-- The bit-field decoder (R100). -/
def fields565 (w : Rgb565) : BitVec 5 × BitVec 6 × BitVec 5 := (red5 w, green6 w, blue5 w)

/-- The packing `(r5 << 11) | (g6 << 5) | b5`, the decoder's inverse (R100, R121). -/
def pack565 (r : BitVec 5) (g : BitVec 6) (b : BitVec 5) : Rgb565 := r ++ g ++ b

/-! ## Palette indices -/

/-- `in_range`: the index, zero-extended to 16 bits, is strictly below the palette count (R140). -/
def inRange (count : BitVec 16) (index : Byte) : Bool := (index.setWidth 16).ult count

end Sys2Proof.Machine
end

