-- ==== Sys2Proof/Machine/Ops.lean ====
section
/-! DEFINITION. The operations the meanings share: reading and building a table file, the checks of a transaction in
their order (spec/60_exceptions.md R165), ending a transaction with a response or an error (R160), and reset (R180). -/

namespace Sys2Proof

/-- A request is well-formed when its payload holds exactly `SRC_LEN` bytes (R67). -/
def Request.wellFormed (r : Request) : Bool := r.src.length == r.srcLen.toNat

end Sys2Proof

namespace Sys2Proof.Machine

/-! ## Table files -/

/-- Read entry `index` of a table file (R22–R24). -/
def Lut.read {α : Type} : {n : Nat} → Lut α n → BitVec n → α
  | 0, .entry value, _ => value
  | n + 1, .halves lower upper, index =>
    if index.msb then upper.read (index.setWidth n) else lower.read (index.setWidth n)

/-- Write every entry at once: the table file whose entry `v` is `f v` (R22). -/
def Lut.build {α : Type} : (n : Nat) → (BitVec n → α) → Lut α n
  | 0, f => .entry (f 0#0)
  | n + 1, f => .halves (Lut.build n fun v => f (BitVec.cons false v)) (Lut.build n fun v => f (BitVec.cons true v))

/-! ## Requests -/

/-- The block takes a request: it is now the transaction in flight (R29, R49). -/
def State.accept (s : State) (r : Request) : State := { s with inFlight := some r }

/-! ## Ending a transaction -/

/-- `respond(err, result, DST)`: the transaction ends, and the host receives `STATUS` (with `READY` the value of
`LUT_READY` now, R28) and `DST`. The descriptor and the payload are gone (R27, R29). -/
def State.respond (s : State) (err : ErrCode) (result : Bool) (dst : List Byte) : State :=
  { s with inFlight := none, responses := s.responses ++ [⟨statusWord s.lutReady result err, dst⟩] }

/-- `raise Error(code)` (R160, R166): the transaction ends at once with the code, `RESULT = 0` and an empty `DST`, and
nothing else changes. This is the block's whole exception entry: "There is no vector, handler, saved pc, cause register
or mode change". There is no return from it either: "There is no return instruction, nothing to restore" (R166). -/
def raiseError (code : ErrCode) (s : State) : Host.Outcome State Fault Refusal := .next (s.respond code false [])

/-! ## The checks of a transaction, in the order of R165 -/

/-- Run `k` on the request in flight, which must be well-formed (R67). -/
def withRequest (s : State) (k : Request → Host.Outcome State Fault Refusal) : Host.Outcome State Fault Refusal :=
  match s.inFlight with
  | none => .refused .noRequest
  | some r => if r.wellFormed then k r else .refused .illFormedRequest

/-- Check 2: `E_NOT_READY` unless `LUT_READY = 1` (R163). -/
def requireReady (s : State) (k : Host.Outcome State Fault Refusal) : Host.Outcome State Fault Refusal :=
  if s.lutReady then k else raiseError .notReady s

/-- Check 3: `E_INVALID_LENGTH` unless the length fits the command (R162). -/
def requireLength (fits : Bool) (s : State) (k : Host.Outcome State Fault Refusal) : Host.Outcome State Fault Refusal :=
  if fits then k else raiseError .invalidLength s

/-- Run `k` on a table that holds a value; a table that holds none is not read (R25, I4). -/
def withTable {α : Type} (table : Option α) (k : α → Host.Outcome State Fault Refusal) :
    Host.Outcome State Fault Refusal :=
  match table with
  | none => .refused .absentTable
  | some t => k t

/-- Check 1 has failed: a request whose `CMD` is illegal ends with `E_ILLEGAL_CMD` (R164). -/
def raiseIllegalCmd (s : State) : Host.Outcome State Fault Refusal :=
  withRequest s fun _ => raiseError .illegalCmd s

/-! ## Reset -/

/-- Reset, at power-on or when asserted: `LUT_READY` is 0, the tables hold no value, and a transaction in flight is
gone without a response (R30, R180, R181). The host's plan and what it has received are not the block's (log entry 3). -/
def State.resetBlock (s : State) : State :=
  { s with lutReady := false, lut5 := none, lut6 := none, lut888 := none, inFlight := none }

end Sys2Proof.Machine
end

