-- ==== Sys2Proof/Machine/Compact.lean ====
section
/-! DEFINITION. The channel quantisers, the compactor and the `COMPACT` command (spec/42_compact.md R120–R122). -/

namespace Sys2Proof.Machine

/-- The compactor: quantise each channel on its own and pack the fields (R120, R121). -/
def compact888 (lut5 : Lut (BitVec 5) 8) (lut6 : Lut (BitVec 6) 8) (red green blue : Byte) : Rgb565 :=
  pack565 (lut5.read red) (lut6.read green) (lut5.read blue)

/-- `DST` of `COMPACT`: two bytes per RGB888 pixel of the source, low byte first (R122). -/
def compactBytes (lut5 : Lut (BitVec 5) 8) (lut6 : Lut (BitVec 6) 8) (src : List Byte) : List Byte :=
  (pixels888 src).flatMap fun (red, green, blue) => bytes565 (compact888 lut5 lut6 red green blue)

/-- `COMPACT` (R122). -/
def execCompact (s : State) : Host.Outcome State Fault Refusal :=
  withRequest s fun r =>
    requireReady s <|
    requireLength (r.srcLen.toNat % Config.stride888 == 0) s <|
    withTable s.lut5 fun lut5 =>
    withTable s.lut6 fun lut6 =>
      .next (s.respond .ok false (compactBytes lut5 lut6 r.src))

end Sys2Proof.Machine
end

