-- ==== Sys2Proof/Machine/Expand.lean ====
section
/-! DEFINITION. The parallel expander and the `EXPAND` command (spec/41_expand.md R101–R103). -/

namespace Sys2Proof.Machine

/-- The parallel expander: one lookup per pixel, and no rounding at call time (R101). -/
def expand565 (lut888 : Lut Rgb888 16) (w : Rgb565) : Rgb888 := lut888.read w

/-- `DST` of `EXPAND`: three bytes per RGB565 pixel of the source, pixel by pixel (R103). -/
def expandBytes (lut888 : Lut Rgb888 16) (src : List Byte) : List Byte :=
  (pixels565 src).flatMap fun w => bytes888 (expand565 lut888 w)

/-- `EXPAND` (R103). -/
def execExpand (s : State) : Host.Outcome State Fault Refusal :=
  withRequest s fun r =>
    requireReady s <|
    requireLength (r.srcLen.toNat % Config.stride565 == 0) s <|
    withTable s.lut888 fun lut888 =>
      .next (s.respond .ok false (expandBytes lut888 r.src))

end Sys2Proof.Machine
end

