-- ==== Sys2Proof/Machine/Palette.lean ====
section
/-! DEFINITION. The palette-index validator and the `PALCHK` command (spec/43_palette.md R140–R142). -/

namespace Sys2Proof.Machine

/-- The verdict on a buffer: an AND over all of its indices (R141, R142). -/
def allInRange (count : BitVec 16) (src : List Byte) : Bool := src.all (inRange count)

/-- `PALCHK` (R141). Every length is valid, and an index out of range is a result, not an error. -/
def execPalchk (count : BitVec 16) (s : State) : Host.Outcome State Fault Refusal :=
  withRequest s fun r =>
    requireReady s <|
      .next (s.respond .ok (allInRange count r.src) [])

end Sys2Proof.Machine
end

