-- ==== Sys2Proof/Machine/Tables.lean ====
section
/-! DEFINITION. The contents of the three tables and the `LUTINIT` command that writes them
(spec/40_lut_init.md R80–R86). -/

namespace Sys2Proof.Machine

/-- `round_half_up(num / den) = floor(num / den + 1/2)` for `den > 0`, as one exact floor division (R10). -/
def roundHalfUp (num den : Nat) : Nat := (2 * num + den) / (2 * den)

/-- `Q5(v) = round_half_up(v × 31 / 255)` (R80). -/
def q5 (v : Byte) : BitVec 5 := BitVec.ofNat 5 (roundHalfUp (v.toNat * 31) 255)

/-- `Q6(v) = round_half_up(v × 63 / 255)` (R81). -/
def q6 (v : Byte) : BitVec 6 := BitVec.ofNat 6 (roundHalfUp (v.toNat * 63) 255)

/-- `X5(b) = round_half_up(b × 255 / 31)` (R82). -/
def x5 (b : BitVec 5) : Byte := BitVec.ofNat 8 (roundHalfUp (b.toNat * 255) 31)

/-- `X6(g) = round_half_up(g × 255 / 63)` (R83). -/
def x6 (g : BitVec 6) : Byte := BitVec.ofNat 8 (roundHalfUp (g.toNat * 255) 63)

/-- `X888(v) = (X5(v[15:11]) << 16) | (X6(v[10:5]) << 8) | X5(v[4:0])` (R84). -/
def x888 (v : Rgb565) : Rgb888 := x5 (red5 v) ++ x6 (green6 v) ++ x5 (blue5 v)

/-- The contents of `LUT5` (R22, R80). -/
def lut5Contents : Lut (BitVec 5) 8 := Lut.build 8 q5

/-- The contents of `LUT6` (R23, R81). -/
def lut6Contents : Lut (BitVec 6) 8 := Lut.build 8 q6

/-- The contents of `LUT888` (R24, R84). -/
def lut888Contents : Lut Rgb888 16 := Lut.build 16 x888

/-- All 66048 entries and `LUT_READY` are written together (R86). -/
def State.loadTables (s : State) : State :=
  { s with lutReady := true, lut5 := some lut5Contents, lut6 := some lut6Contents, lut888 := some lut888Contents }

/-- `LUTINIT` (R86): with no payload, write the tables and set `LUT_READY`; with one, `E_INVALID_LENGTH`. The only
command that never raises `E_NOT_READY`. -/
def execLutinit (s : State) : Host.Outcome State Fault Refusal :=
  withRequest s fun r =>
    requireLength (r.srcLen.toNat == 0) s <|
      .next (s.loadTables.respond .ok false [])

end Sys2Proof.Machine
end

