-- ==== Sys2Proof/Machine/Dispatch.lean ====
section
/-! DEFINITION. One arm per command. -/

namespace Sys2Proof.Machine

/-- The meaning of a command on the request in flight (R165 step 4, after check 1). -/
def exec (i : Instr) (s : State) : Host.Outcome State Fault Refusal :=
  match i with
  | .lutinit => Sys2Proof.Machine.execLutinit s
  | .expand => Sys2Proof.Machine.execExpand s
  | .compact => Sys2Proof.Machine.execCompact s
  | .palchk count => Sys2Proof.Machine.execPalchk count s

end Sys2Proof.Machine
end

