-- ==== Sys2Proof/Machine/Transaction.lean ====
section
/-! DEFINITION. One whole transaction, and what each action of the host does to the block
(spec/20_memory.md R49, spec/60_exceptions.md R165, spec/70_reset_and_hazards.md R180, R181). -/

namespace Sys2Proof.Machine

/-- The block performs the request `r`, which is in flight in `s`: decode `CMD`; an illegal one is check 1 of R165, and a
command runs its meaning, which makes the other checks. -/
def transact (r : Request) (s : State) : Host.Outcome State Fault Refusal :=
  match decode r.cmd with
  | .error _ => raiseIllegalCmd s
  | .ok i => exec i s

/-- The effect of one host action on an idle block. A request runs as one atomic transaction (R49). A reset clears the
block (R180); one that lands while a request is in flight leaves no trace of it (R181). -/
def hostAct (s : State) : HostAction → Host.Outcome State Fault Refusal
  | .issue r => transact r (s.accept r)
  | .abort r => .next (s.accept r).resetBlock
  | .assertReset => .next s.resetBlock

end Sys2Proof.Machine
end

