-- ==== Sys2Proof/Machine/Step.lean ====
section
/-! DEFINITION. One step of the machine, and how the host of this model hands it one opcode-table word. -/

namespace Sys2Proof.Machine

/-- One step: a block with a transaction in flight performs it while the host waits (R29, R49); an idle block takes the
host's next action; with none, it stays idle and keeps its state (R173). -/
def step (s : State) : Host.Outcome State Fault Refusal :=
  match s.inFlight with
  | some r => transact r s
  | none =>
    match s.host with
    | [] => .next s
    | action :: rest => hostAct { s with host := rest } action

/-- `s` with the request of an opcode-table word in flight, so that the next step performs it (log entry 9). -/
def State.withFetchWord (s : State) (nbits w : Nat) : State :=
  { s with inFlight := some (requestOfTableWord nbits w) }

end Sys2Proof.Machine
end

