-- ==== Sys2Proof/Machine/Assembler.lean ====
section
/-! DEFINITION. The spec's assembler (spec/30_encoding.md R70, R71): text to a line, a line to a request, a program to
the host's actions, and a response as text. Notation only: nothing of the block depends on it. The details of the
spelling that R70 leaves open are log entry 15. -/

namespace Sys2Proof.Machine

/-! ## From a line to a request -/

/-- The request of a command word and a byte list; the assembler computes `SRC_LEN` from the list (R70). -/
def asmRequest (cmd : Word) (bytes : List Nat) : Request :=
  ⟨cmd, BitVec.ofNat 32 bytes.length, bytes.map (BitVec.ofNat 8)⟩

/-- The request of one line; none is an assembly error (R70). `.cmd` passes its word through unchecked (R71). -/
def assemble (line : AsmLine) : Option Request :=
  if line.wellFormed then
    some <| match line with
      | .lutinit => asmRequest (encode .lutinit) []
      | .expand bytes => asmRequest (encode .expand) bytes
      | .compact bytes => asmRequest (encode .compact) bytes
      | .palchk count bytes => asmRequest (encode (.palchk (BitVec.ofNat 16 count))) bytes
      | .cmd word0 bytes => asmRequest (BitVec.ofNat 32 word0) bytes
  else none

/-- A program is the sequence of requests the host issues, one per line; one bad line is an assembly error. -/
def assembleProgram : List AsmLine → Option (List HostAction)
  | [] => some []
  | line :: rest =>
    match assemble line, assembleProgram rest with
    | some r, some actions => some (.issue r :: actions)
    | _, _ => none

/-! ## From text to a line -/

/-- The pieces of a line: a word (a mnemonic or a number) and the punctuation of a byte list (R70). -/
inductive AsmToken where
  | word (text : List Char)
  | openList
  | closeList
  | comma
  deriving DecidableEq, Repr

/-- The word read so far, held last character first, as a token. -/
def flushWord : List Char → List AsmToken
  | [] => []
  | pending => [.word pending.reverse]

/-- Cut a line into tokens. A comment starts at `;` (R70) and runs to the end of the line; brackets and commas end a word
as blanks do (DESIGN CHOICE, log entry 15). -/
def lexLine (pending : List Char) : List Char → List AsmToken
  | [] => flushWord pending
  | c :: rest =>
    if c = ';' then flushWord pending
    else if c = '[' then flushWord pending ++ .openList :: lexLine [] rest
    else if c = ']' then flushWord pending ++ .closeList :: lexLine [] rest
    else if c = ',' then flushWord pending ++ .comma :: lexLine [] rest
    else if c.isWhitespace then flushWord pending ++ lexLine [] rest
    else lexLine (c :: pending) rest

/-- The value of a digit in base 10 or 16. -/
def digitValue (base : Nat) (c : Char) : Option Nat :=
  let n := c.toNat
  let value :=
    if 48 ≤ n ∧ n ≤ 57 then n - 48
    else if 97 ≤ n ∧ n ≤ 102 then n - 87
    else if 65 ≤ n ∧ n ≤ 70 then n - 55
    else base
  if value < base then some value else none

/-- The value of a digit string, most significant digit first. -/
def digitsValue (base acc : Nat) : List Char → Option Nat
  | [] => some acc
  | c :: rest =>
    match digitValue base c with
    | some d => digitsValue base (acc * base + d) rest
    | none => none

/-- A number, in decimal or in hexadecimal after `0x` (R70), unsigned and with at least one digit. DESIGN CHOICE (log
entry 15): leading zeros are allowed, and the `x` is a small letter. -/
def asmNumber : List Char → Option Nat
  | [] => none
  | '0' :: 'x' :: c :: rest => digitsValue 16 0 (c :: rest)
  | c :: rest => digitsValue 10 0 (c :: rest)

/-- The values of a byte list after its opening bracket, at least one. -/
def asmItems : List AsmToken → Option (List Nat)
  | [.word w, .closeList] => (asmNumber w).map fun n => [n]
  | .word w :: .comma :: rest =>
    match asmNumber w, asmItems rest with
    | some n, some ns => some (n :: ns)
    | _, _ => none
  | _ => none

/-- A byte list `[b0, b1, ...]`, which may be empty (R70). -/
def asmBytes : List AsmToken → Option (List Nat)
  | [.openList, .closeList] => some []
  | .openList :: items => asmItems items
  | _ => none

/-- A number, a comma and a byte list: the operands of `PALCHK` and `.cmd` (R70). -/
def asmNumberAndBytes (make : Nat → List Nat → AsmLine) : List AsmToken → Option AsmLine
  | .word w :: .comma :: rest =>
    match asmNumber w, asmBytes rest with
    | some n, some bytes => some (make n bytes)
    | _, _ => none
  | _ => none

/-- One line of the assembler, by its mnemonic or directive (R70, R71); none is an assembly error. DESIGN CHOICE (log
entry 15): a line that is blank or holds only a comment is no statement, so it is none too; R70 says only where a comment
starts. Text after the end of a statement makes the line none. -/
def parseLine (text : List Char) : Option AsmLine :=
  match lexLine [] text with
  | .word mnemonic :: operands =>
    if mnemonic = ['L', 'U', 'T', 'I', 'N', 'I', 'T'] then
      if operands = [] then some .lutinit else none
    else if mnemonic = ['E', 'X', 'P', 'A', 'N', 'D'] then (asmBytes operands).map .expand
    else if mnemonic = ['C', 'O', 'M', 'P', 'A', 'C', 'T'] then (asmBytes operands).map .compact
    else if mnemonic = ['P', 'A', 'L', 'C', 'H', 'K'] then asmNumberAndBytes .palchk operands
    else if mnemonic = ['.', 'c', 'm', 'd'] then asmNumberAndBytes .cmd operands
    else none
  | _ => none

/-! ## A response as text -/

/-- A digit below 16 as a character. -/
def digitChar (d : Nat) : Char := Char.ofNat (if d < 10 then 48 + d else 55 + d)

/-- The last `n` hexadecimal digits of a number. -/
def hexText : Nat → Nat → List Char
  | 0, _ => []
  | n + 1, v => hexText n (v / 16) ++ [digitChar (v % 16)]

/-- A byte in decimal. -/
def byteText (b : Byte) : List Char :=
  let v := b.toNat
  if v < 10 then [digitChar v]
  else if v < 100 then [digitChar (v / 10), digitChar (v % 10)]
  else [digitChar (v / 100), digitChar (v / 10 % 10), digitChar (v % 10)]

/-- Bytes in decimal, separated by a comma and a blank. -/
def bytesText : List Byte → List Char
  | [] => []
  | [b] => byteText b
  | b :: rest => byteText b ++ [',', ' '] ++ bytesText rest

/-- "The response is written `-> STATUS=0x..., DST=[...]`" (R70). -/
def Response.text (r : Response) : List Char :=
  ['-', '>', ' ', 'S', 'T', 'A', 'T', 'U', 'S', '=', '0', 'x'] ++ hexText 8 r.status.toNat ++
  [',', ' ', 'D', 'S', 'T', '=', '['] ++ bytesText r.dst ++ [']']

end Sys2Proof.Machine
end

