-- ==== Sys2Proof/Safety.lean ====
section
/-! DEFINITION. What counts as a good state, in the terms the statements use: the block's invariant (spec/10_state.md
R20, R25), the host's contract (R67), and a response the block may send (R28, R161, R166). -/

namespace Sys2Proof.Machine

/-- The block's invariant: `LUT_READY` says whether the tables hold a value (R20, R25), and the value they hold is the
one of R86. -/
structure State.Inv (s : State) : Prop where
  /-- Ready: every table holds its defined contents. -/
  whenReady : s.lutReady = true →
    s.lut5 = some lut5Contents ∧ s.lut6 = some lut6Contents ∧ s.lut888 = some lut888Contents
  /-- Not ready: no table holds a value. -/
  whenNotReady : s.lutReady = false → s.lut5 = none ∧ s.lut6 = none ∧ s.lut888 = none

/-- The host's contract: every request it will see performed is well-formed (R67). A request it aborts is never
performed (R181), so the contract does not speak of it. -/
structure State.HostContract (s : State) : Prop where
  /-- The request in flight, if any. -/
  inFlight : ∀ r, s.inFlight = some r → r.wellFormed = true
  /-- The requests it has yet to issue. -/
  planned : ∀ r, HostAction.issue r ∈ s.host → r.wellFormed = true

/-- A response the block may send: the reserved bits 7:4 and 31:10 of `STATUS` are 0 and `ERR` is at most 3 (R28, R161);
with an error, `RESULT = 0` and `DST` is empty (R166). -/
structure Response.Legal (r : Response) : Prop where
  /-- Reserved status bits. -/
  reservedBits : r.status &&& 0xFFFFFCF0#32 = 0#32
  /-- No reserved error code. -/
  errorCode : r.status.toNat % 16 ≤ 3
  /-- An error has no result. -/
  noOutputOnError : r.status.toNat % 16 ≠ 0 → r.status.getLsbD 8 = false ∧ r.dst = []

/-- Every response received so far is one the block may send. -/
def State.ResponsesLegal (s : State) : Prop := ∀ r ∈ s.responses, r.Legal

/-- The response the host gets for each action that asks for one. -/
def HostAction.wantsResponse : HostAction → Bool
  | .issue _ => true
  | .abort _ => false
  | .assertReset => false

end Sys2Proof.Machine
end

