-- ==== Sys2Proof/Certificates/Slice0/Obligations.lean ====
section
/-! DEFINITION. The statements about the colour codec block. Next states are written out field by field, so that each
says what the command leaves unchanged as well as what it changes; statuses are the spec's own numbers. -/

open Sys2Proof Sys2Proof.Machine

/-! ## Reset and the idle block -/

/-- R30, R180: power-on reset and an asserted reset leave `LUT_READY = 0`, no table value and nothing in flight, whatever
the block held before; the block is then waiting for a request: it answers the next well-formed one, once. -/
def Obligations.ResetClearsTheBlock : Prop :=
  (State.reset.lutReady = false ∧ State.reset.lut5 = none ∧ State.reset.lut6 = none ∧ State.reset.lut888 = none ∧
    State.reset.inFlight = none ∧
    ∀ r : Request, r.wellFormed = true → ∃ u resp, step (State.reset.accept r) = .next u ∧
      u.responses = State.reset.responses ++ [resp]) ∧
  (∀ (s : State) (rest : List HostAction), s.inFlight = none → s.host = .assertReset :: rest →
    ∃ t, step s = .next t ∧ t.lutReady = false ∧ t.lut5 = none ∧ t.lut6 = none ∧ t.lut888 = none ∧ t.inFlight = none ∧
      ∀ r : Request, r.wellFormed = true → ∃ u resp, step (t.accept r) = .next u ∧ u.responses = t.responses ++ [resp])

/-- R181: a reset before the response aborts the transaction: no response is added, so no `DST`; `LUT_READY = 0` (an
aborted `LUTINIT` included) and no table value, as if the request had never been performed and reset alone had been
asserted; every well-formed command but `LUTINIT` is then not ready, so `LUTINIT` must be issued again. What the host
itself keeps across the reset is no rule of the spec and is stated apart (`ResetLeavesTheHostsLists`). -/
def Obligations.ResetAbortsTheTransaction : Prop :=
  ∀ (s : State) (r : Request) (rest : List HostAction), s.inFlight = none → r.wellFormed = true →
    s.host = .abort r :: rest →
    ∃ t, step s = .next t ∧ t.lutReady = false ∧ t.lut5 = none ∧ t.lut6 = none ∧ t.lut888 = none ∧
      t.inFlight = none ∧ t.responses.Sublist s.responses ∧
      step { s with host := .assertReset :: rest } = .next t ∧
      ∀ (q : Request) (i : Instr), q.wellFormed = true → decode q.cmd = .ok i → i ≠ .lutinit →
        step (t.accept q) = .next { t with responses := t.responses ++ [⟨0x00000002#32, []⟩] }

/-- The MODEL'S CHOICE of log entry 3 (DESIGN CHOICE), no rule of the spec: a reset, asserted on an idle block or before
the response to a request, well-formed or not, clears the block and leaves the host's remaining plan and the responses
it has already received as they are. -/
def Obligations.ResetLeavesTheHostsLists : Prop :=
  ∀ (s : State) (rest : List HostAction), s.inFlight = none →
    (s.host = .assertReset :: rest ∨ ∃ r, s.host = .abort r :: rest) →
    step s = .next { lutReady := false, lut5 := none, lut6 := none, lut888 := none, inFlight := none,
                     host := rest, responses := s.responses }

/-- P5 of the spec's programs, for every request: after a `LUTINIT` that reset aborted, a well-formed `EXPAND` is not
ready, whatever the block held before. That the host's next request and its earlier responses survive the reset, and
that the aborted request may be ill-formed, is the model's choice (log entry 3, DESIGN CHOICE). -/
def Obligations.AbortedLutinitLeavesNotReady : Prop :=
  ∀ (s : State) (r q : Request) (rest : List HostAction), s.inFlight = none → r.cmd = 0x00000001#32 →
    q.cmd = 0x00000002#32 → q.wellFormed = true → s.host = .abort r :: .issue q :: rest →
    ∃ t u, step s = .next t ∧ step t = .next u ∧ u.host = rest ∧ u.lutReady = false ∧
      u.responses = s.responses ++ [⟨0x00000002#32, []⟩]

/-- Log entry 2 (DEDUCED from R173, which speaks of `LUT_READY` and the tables): a step of an idle block whose host plans
nothing answers the whole state unchanged. The reset state is such a state by log entry 1's choice of an empty plan. -/
def Obligations.IdleBlockKeepsItsState : Prop :=
  (∀ s : State, s.inFlight = none → s.host = [] → step s = .next s) ∧ step State.reset = .next State.reset

/-! ## Encoding -/

/-- Decoding the encoding of a command gives it back, with its palette count at every value (R64, R68). -/
def Obligations.DecodeEncodeRoundTrip : Prop := ∀ i : Instr, decode (encode i) = .ok i

/-- A command word that decodes is the encoding of what it decodes to: no bit of it is ignored (R64, R65). -/
def Obligations.DecodedWordIsItsEncoding : Prop := ∀ (cmd : Word) (i : Instr), decode cmd = .ok i → encode i = cmd

/-- R65 and R164: a `CMD` is illegal exactly when its opcode is reserved, its `RSV` is not 0, or its `IMM16` is not 0 on
a command other than `PALCHK`; the block then answers `E_ILLEGAL_CMD` with no output and changes no state. -/
def Obligations.IllegalCommandsAreRefused : Prop :=
  (∀ cmd : Word, (∃ e, decode cmd = .error e) ↔
    (cmd.toNat % 256 = 0 ∨ 5 ≤ cmd.toNat % 256) ∨ cmd.toNat / 256 % 256 ≠ 0 ∨
    (cmd.toNat % 256 ∈ [1, 2, 3] ∧ cmd.toNat / 65536 ≠ 0)) ∧
  ∀ (s : State) (r : Request) (e : Illegal), s.inFlight = some r → r.wellFormed = true → decode r.cmd = .error e →
    step s = .next { s with inFlight := none,
                            responses := s.responses ++ [⟨if s.lutReady then 0x00000203#32 else 0x00000003#32, []⟩] }

/-- Command words written out from the opcode map (R64) decode to their commands, and their neighbours to none. -/
def Obligations.SpecWordsDecode : Prop :=
  decode 0x00000001#32 = .ok .lutinit ∧ decode 0x00000002#32 = .ok .expand ∧ decode 0x00000003#32 = .ok .compact ∧
  decode 0x00040004#32 = .ok (.palchk 4#16) ∧ decode 0xFFFF0004#32 = .ok (.palchk 65535#16) ∧
  decode 0x00000000#32 = .error .reservedOpcode ∧ decode 0x00000005#32 = .error .reservedOpcode ∧
  decode 0x00000101#32 = .error .reservedField ∧ decode 0x80000002#32 = .error .reservedImmediate

/-- A request sent as bytes is `CMD`, `SRC_LEN`, payload, each word least significant byte first; it is read back whole,
and the decoder reads its command, its length and its payload from the bytes (R60, decision D15, log entry 8). -/
def Obligations.RequestBytesRoundTrip : Prop :=
  ∀ r : Request,
    (r.bytes.length = 8 + r.src.length ∧ r.bytes.drop 8 = r.src ∧
      ∀ k < 4, (r.bytes[k]?).map BitVec.toNat = some (r.cmd.toNat / 256 ^ k % 256) ∧
        (r.bytes[4 + k]?).map BitVec.toNat = some (r.srcLen.toNat / 256 ^ k % 256)) ∧
    readRequest r.bytes = some r ∧ ∀ i, decode r.cmd = .ok i → decodeBytes r.bytes = .ok (i, r.srcLen, r.src)

/-- A response sent as bytes is the four bytes of `STATUS`, least significant first, and then `DST[0]`, `DST[1]`, …
(R69, decision D15, log entry 8); a host that reads it so gets the status and the destination back, so two responses with
the same bytes are the same. The response to an error is four bytes long. -/
def Obligations.ResponseBytesOrder : Prop :=
  (∀ r : Response, r.bytes.length = 4 + r.dst.length ∧
    (∀ k < 4, (r.bytes[k]?).map BitVec.toNat = some (r.status.toNat / 256 ^ k % 256)) ∧
    (∀ k, r.bytes[4 + k]? = r.dst[k]?) ∧
    ∃ b0 b1 b2 b3, r.bytes = b0 :: b1 :: b2 :: b3 :: r.dst ∧ wordOfBytes b0 b1 b2 b3 = r.status) ∧
  (∀ r q : Response, r.bytes = q.bytes → r = q) ∧
  ∀ (s t : State) (r : Request) (resp : Response), s.inFlight = some r → step s = .next t →
    t.responses = s.responses ++ [resp] → resp.status.toNat % 16 ≠ 0 → resp.bytes.length = 4

/-! ## The tables -/

/-- R80, R81: the quantisation formulas are the exact half-up roundings, in the integer form the rules give. -/
def Obligations.QuantisersRoundHalfUp : Prop :=
  ∀ v : Byte,
    (((q5 v).toNat : ℤ) = ⌊(v.toNat : ℚ) * 31 / 255 + 1 / 2⌋ ∧ (q5 v).toNat = (62 * v.toNat + 255) / 510) ∧
    (((q6 v).toNat : ℤ) = ⌊(v.toNat : ℚ) * 63 / 255 + 1 / 2⌋ ∧ (q6 v).toNat = (126 * v.toNat + 255) / 510)

/-- R82, R83: the expansion formulas are the exact half-up roundings, in the integer form the rules give. -/
def Obligations.ExpansionsRoundHalfUp : Prop :=
  (∀ b : BitVec 5, ((x5 b).toNat : ℤ) = ⌊(b.toNat : ℚ) * 255 / 31 + 1 / 2⌋ ∧
    (x5 b).toNat = (510 * b.toNat + 31) / 62) ∧
  (∀ g : BitVec 6, ((x6 g).toNat : ℤ) = ⌊(g.toNat : ℚ) * 255 / 63 + 1 / 2⌋ ∧
    (x6 g).toNat = (510 * g.toNat + 63) / 126)

/-- R84: every entry of the expansion table, in the rule's shifts and masks. -/
def Obligations.ExpansionTableEntries : Prop :=
  ∀ v : Rgb565,
    lut888Contents.read v =
      (((x5 (((v >>> 11) &&& 0x1F#16).setWidth 5)).setWidth 24) <<< 16) |||
      (((x6 (((v >>> 5) &&& 0x3F#16).setWidth 6)).setWidth 24) <<< 8) |||
      ((x5 ((v &&& 0x1F#16).setWidth 5)).setWidth 24)

/-- R85's first half: no value rounded lies halfway between two integers, with the least distances the rule names; so a
table entry is the only integer within 1/2, whatever round-to-nearest rule computes it. (The rule's remark on IEEE-754
arithmetic is not stated.) -/
def Obligations.RoundingHasNoTies : Prop :=
  (∀ (v : Byte) (n : ℤ), |(v.toNat : ℚ) * 31 / 255 - (n + 1 / 2)| ≥ 1 / 510 ∧
    |(v.toNat : ℚ) * 63 / 255 - (n + 1 / 2)| ≥ 1 / 170) ∧
  (∀ (b : BitVec 5) (n : ℤ), |(b.toNat : ℚ) * 255 / 31 - (n + 1 / 2)| ≥ 1 / 62) ∧
  (∀ (g : BitVec 6) (n : ℤ), |(g.toNat : ℚ) * 255 / 63 - (n + 1 / 2)| ≥ 1 / 42) ∧
  (∀ (v : Byte) (n : ℤ), |(v.toNat : ℚ) * 31 / 255 - n| ≤ 1 / 2 → n = (q5 v).toNat) ∧
  (∀ (v : Byte) (n : ℤ), |(v.toNat : ℚ) * 63 / 255 - n| ≤ 1 / 2 → n = (q6 v).toNat) ∧
  (∀ (b : BitVec 5) (n : ℤ), |(b.toNat : ℚ) * 255 / 31 - n| ≤ 1 / 2 → n = (x5 b).toNat) ∧
  (∀ (g : BitVec 6) (n : ℤ), |(g.toNat : ℚ) * 255 / 63 - n| ≤ 1 / 2 → n = (x6 g).toNat)

/-- R87: ranges, end points, monotonicity, the round trip of a field and of a whole pixel, and channel independence. -/
def Obligations.TableProperties : Prop :=
  (∀ v : Byte, (q5 v).toNat ≤ 31 ∧ (q6 v).toNat ≤ 63) ∧
  (∀ (b : BitVec 5) (g : BitVec 6), (x5 b).toNat ≤ 255 ∧ (x6 g).toNat ≤ 255) ∧
  (∀ w : Rgb565, (x888 w).toNat < 2 ^ 24) ∧
  (q5 0 = 0 ∧ q6 0 = 0 ∧ q5 255 = 31 ∧ q6 255 = 63 ∧ x5 0 = 0 ∧ x6 0 = 0 ∧ x5 31 = 255 ∧ x6 63 = 255) ∧
  (∀ v v' : Byte, v ≤ v' → q5 v ≤ q5 v' ∧ q6 v ≤ q6 v') ∧
  (∀ b b' : BitVec 5, b < b' → x5 b < x5 b') ∧
  (∀ g g' : BitVec 6, g < g' → x6 g < x6 g') ∧
  (∀ b : BitVec 5, q5 (x5 b) = b) ∧ (∀ g : BitVec 6, q6 (x6 g) = g) ∧
  (∀ w : Rgb565, compactBytes lut5Contents lut6Contents (expandBytes lut888Contents (bytes565 w)) = bytes565 w) ∧
  x5 (q5 1) = 0 ∧
  (∀ w : Rgb565, bytes888 (lut888Contents.read w) = [x5 (red5 w), x6 (green6 w), x5 (blue5 w)]) ∧
  roundHalfUp (31 * 31) 255 = 4

/-- R89: the whole contents of `LUT5` by the rule's runs: entry `k` of the list is the first and last input whose output
is `k`. -/
def Obligations.Lut5Listing : Prop :=
  let runs : List (Nat × Nat) :=
    [(0, 4), (5, 12), (13, 20), (21, 28), (29, 37), (38, 45), (46, 53), (54, 61), (62, 69), (70, 78), (79, 86),
     (87, 94), (95, 102), (103, 111), (112, 119), (120, 127)] ++
    [(128, 135), (136, 143), (144, 152), (153, 160), (161, 168), (169, 176), (177, 185), (186, 193), (194, 201),
     (202, 209), (210, 217), (218, 226), (227, 234), (235, 242), (243, 250), (251, 255)]
  ∀ v : Byte, ∃ run, runs[(lut5Contents.read v).toNat]? = some run ∧ run.1 ≤ v.toNat ∧ v.toNat ≤ run.2

/-- R90: the whole contents of `LUT6` by the rule's runs. -/
def Obligations.Lut6Listing : Prop :=
  let runs : List (Nat × Nat) :=
    [(0, 2), (3, 6), (7, 10), (11, 14), (15, 18), (19, 22), (23, 26), (27, 30), (31, 34), (35, 38), (39, 42), (43, 46),
     (47, 50), (51, 54), (55, 58), (59, 62)] ++
    [(63, 66), (67, 70), (71, 74), (75, 78), (79, 82), (83, 87), (88, 91), (92, 95), (96, 99), (100, 103), (104, 107),
     (108, 111), (112, 115), (116, 119), (120, 123), (124, 127)] ++
    [(128, 131), (132, 135), (136, 139), (140, 143), (144, 147), (148, 151), (152, 155), (156, 159), (160, 163),
     (164, 167), (168, 172), (173, 176), (177, 180), (181, 184), (185, 188), (189, 192)] ++
    [(193, 196), (197, 200), (201, 204), (205, 208), (209, 212), (213, 216), (217, 220), (221, 224), (225, 228),
     (229, 232), (233, 236), (237, 240), (241, 244), (245, 248), (249, 252), (253, 255)]
  ∀ v : Byte, ∃ run, runs[(lut6Contents.read v).toNat]? = some run ∧ run.1 ≤ v.toNat ∧ v.toNat ≤ run.2

/-- R91: the channel expansions, value by value. -/
def Obligations.ExpansionListing : Prop :=
  let fives : List Nat :=
    [0, 8, 16, 25, 33, 41, 49, 58, 66, 74, 82, 90, 99, 107, 115, 123] ++
    [132, 140, 148, 156, 165, 173, 181, 189, 197, 206, 214, 222, 230, 239, 247, 255]
  let sixes : List Nat :=
    [0, 4, 8, 12, 16, 20, 24, 28, 32, 36, 40, 45, 49, 53, 57, 61] ++
    [65, 69, 73, 77, 81, 85, 89, 93, 97, 101, 105, 109, 113, 117, 121, 125] ++
    [130, 134, 138, 142, 146, 150, 154, 158, 162, 166, 170, 174, 178, 182, 186, 190] ++
    [194, 198, 202, 206, 210, 215, 219, 223, 227, 231, 235, 239, 243, 247, 251, 255]
  (∀ b : BitVec 5, fives[b.toNat]? = some (x5 b).toNat) ∧ (∀ g : BitVec 6, sixes[g.toNat]? = some (x6 g).toNat) ∧
  ∀ w : Rgb565, lut888Contents.read w = x5 (red5 w) ++ x6 (green6 w) ++ x5 (blue5 w)

/-- R88: bit replication is not the expansion, and differs exactly where the rule says; truncation differs from the
quantisers at 52 and at 42 of the 256 inputs. -/
def Obligations.ShortcutsAreNotTheTables : Prop :=
  (∀ b : BitVec 5, (x5 b).toNat ≠ b.toNat * 8 + b.toNat / 4 ↔ b.toNat ∈ [3, 7, 24, 28]) ∧
  (∀ g : BitVec 6, (x6 g).toNat ≠ g.toNat * 4 + g.toNat / 16 ↔
    (11 ≤ g.toNat ∧ g.toNat ≤ 15) ∨ (48 ≤ g.toNat ∧ g.toNat ≤ 52)) ∧
  ((List.range 256).filter fun v => (q5 (BitVec.ofNat 8 v)).toNat ≠ v / 8).length = 52 ∧
  ((List.range 256).filter fun v => (q6 (BitVec.ofNat 8 v)).toNat ≠ v / 4).length = 42

/-! ## Pixels and byte order -/

/-- R100: the fields in the rule's shifts and masks, and the decoder is a bijection whose inverse is the packing. -/
def Obligations.BitFieldDecoderIsABijection : Prop :=
  (∀ w : Rgb565, (red5 w).setWidth 16 = (w >>> 11) &&& 0x1F#16 ∧ (green6 w).setWidth 16 = (w >>> 5) &&& 0x3F#16 ∧
    (blue5 w).setWidth 16 = w &&& 0x1F#16) ∧
  (∀ w : Rgb565, ((red5 w).setWidth 16 <<< 11) ||| ((green6 w).setWidth 16 <<< 5) ||| (blue5 w).setWidth 16 = w) ∧
  (∀ r g b, fields565 (pack565 r g b) = (r, g, b)) ∧ (∀ w, pack565 (red5 w) (green6 w) (blue5 w) = w)

/-- R41, R42, R43: pixel `i` of an RGB565 source is `MemRead(2·i, 2)`, its bytes in a destination are least significant
first; pixel `i` of an RGB888 buffer is bytes `3·i`, `3·i+1`, `3·i+2` in the order red, green, blue. -/
def Obligations.PixelByteOrders : Prop :=
  (∀ (src : List Byte) (i : Nat), ((pixels565 src)[i]?).map BitVec.toNat = memRead src (2 * i) 2) ∧
  (∀ (src : List Byte) (i : Nat) (lo hi : Byte), src[2 * i]? = some lo → src[2 * i + 1]? = some hi →
    (pixels565 src)[i]? = some ((hi.setWidth 16 <<< 8) ||| lo.setWidth 16)) ∧
  (∀ (words : List Rgb565) (i : Nat), (words.flatMap bytes565)[2 * i]? = (words[i]?).map (BitVec.extractLsb' 0 8) ∧
    (words.flatMap bytes565)[2 * i + 1]? = (words[i]?).map (BitVec.extractLsb' 8 8)) ∧
  (∀ (src : List Byte) (i : Nat) (red green blue : Byte), (pixels888 src)[i]? = some (red, green, blue) ↔
    src[3 * i]? = some red ∧ src[3 * i + 1]? = some green ∧ src[3 * i + 2]? = some blue) ∧
  (∀ (pixels : List Rgb888) (i : Nat), (pixels.flatMap bytes888)[3 * i]? = (pixels[i]?).map (BitVec.extractLsb' 16 8) ∧
    (pixels.flatMap bytes888)[3 * i + 1]? = (pixels[i]?).map (BitVec.extractLsb' 8 8) ∧
    (pixels.flatMap bytes888)[3 * i + 2]? = (pixels[i]?).map (BitVec.extractLsb' 0 8))

/-! ## The four commands -/

/-- R86: `LUTINIT` writes every entry of the three tables and `LUT_READY`, from every state; with a payload it is
`E_INVALID_LENGTH` and changes nothing; on a ready block it rewrites the same values; its only encoding is
`0x00000001`, and a word with its opcode and other bits set is `E_ILLEGAL_CMD`. -/
def Obligations.LutinitFollowsItsRule : Prop :=
  ∀ (s : State) (r : Request), s.inFlight = some r → r.wellFormed = true →
    (r.srcLen = 0#32 → ∃ (l5 : Lut (BitVec 5) 8) (l6 : Lut (BitVec 6) 8) (l888 : Lut Rgb888 16),
      exec .lutinit s = .next { s with lutReady := true, lut5 := some l5, lut6 := some l6, lut888 := some l888,
                                       inFlight := none, responses := s.responses ++ [⟨0x00000200#32, []⟩] } ∧
      (∀ v : Byte, (l5.read v).toNat = (62 * v.toNat + 255) / 510) ∧
      (∀ v : Byte, (l6.read v).toNat = (126 * v.toNat + 255) / 510) ∧
      (∀ w : Rgb565, (l888.read w).toNat = (510 * (w.toNat / 2048) + 31) / 62 * 65536 +
        (510 * (w.toNat / 32 % 64) + 63) / 126 * 256 + (510 * (w.toNat % 32) + 31) / 62) ∧
      (s.Inv → s.lutReady = true → s.lut5 = some l5 ∧ s.lut6 = some l6 ∧ s.lut888 = some l888)) ∧
    (r.srcLen ≠ 0#32 →
      exec .lutinit s = .next { s with inFlight := none, responses := s.responses ++
        [⟨if s.lutReady then 0x00000201#32 else 0x00000001#32, []⟩] }) ∧
    (decode r.cmd = .ok .lutinit ↔ r.cmd = 0x00000001#32) ∧
    (r.cmd.toNat % 256 = 1 → r.cmd ≠ 0x00000001#32 →
      step s = .next { s with inFlight := none, responses := s.responses ++
        [⟨if s.lutReady then 0x00000203#32 else 0x00000003#32, []⟩] })

/-- R103: on a ready block `EXPAND` of an even number of bytes answers `0x00000200` and, for every pixel, the three
channel bytes of its closed form, three per two source bytes; otherwise it is not ready, then of invalid length; its only
encoding is `0x00000002`. Nothing else of the state changes in any case. -/
def Obligations.ExpandFollowsItsRule : Prop :=
  ∀ (s : State) (r : Request), s.Inv → s.inFlight = some r → r.wellFormed = true →
    (s.lutReady = true → r.srcLen.toNat % 2 = 0 → ∃ dst : List Byte,
      exec .expand s = .next { s with inFlight := none, responses := s.responses ++ [⟨0x00000200#32, dst⟩] } ∧
      dst.length = 3 * (r.srcLen.toNat / 2) ∧
      ∀ (i : Nat) (lo hi : Byte) (w : Nat), r.src[2 * i]? = some lo → r.src[2 * i + 1]? = some hi →
        w = hi.toNat * 256 + lo.toNat →
        (dst[3 * i]?).map BitVec.toNat = some ((510 * (w / 2048) + 31) / 62) ∧
        (dst[3 * i + 1]?).map BitVec.toNat = some ((510 * (w / 32 % 64) + 63) / 126) ∧
        (dst[3 * i + 2]?).map BitVec.toNat = some ((510 * (w % 32) + 31) / 62)) ∧
    (s.lutReady = false →
      exec .expand s = .next { s with inFlight := none, responses := s.responses ++ [⟨0x00000002#32, []⟩] }) ∧
    (s.lutReady = true → r.srcLen.toNat % 2 = 1 →
      exec .expand s = .next { s with inFlight := none, responses := s.responses ++ [⟨0x00000201#32, []⟩] }) ∧
    (decode r.cmd = .ok .expand ↔ r.cmd = 0x00000002#32) ∧
    (r.cmd.toNat % 256 = 2 → r.cmd ≠ 0x00000002#32 →
      step s = .next { s with inFlight := none, responses := s.responses ++
        [⟨if s.lutReady then 0x00000203#32 else 0x00000003#32, []⟩] })

/-- R122: on a ready block `COMPACT` of a multiple of three bytes answers `0x00000200` and, for every pixel, the two
bytes of the packed word, low byte first; otherwise it is not ready, then of invalid length; its only encoding is
`0x00000003`. Nothing else of the state changes in any case. -/
def Obligations.CompactFollowsItsRule : Prop :=
  ∀ (s : State) (r : Request), s.Inv → s.inFlight = some r → r.wellFormed = true →
    (s.lutReady = true → r.srcLen.toNat % 3 = 0 → ∃ dst : List Byte,
      exec .compact s = .next { s with inFlight := none, responses := s.responses ++ [⟨0x00000200#32, dst⟩] } ∧
      dst.length = 2 * (r.srcLen.toNat / 3) ∧
      ∀ (i : Nat) (red green blue : Byte), r.src[3 * i]? = some red → r.src[3 * i + 1]? = some green →
        r.src[3 * i + 2]? = some blue →
        ∃ lo hi : Byte, dst[2 * i]? = some lo ∧ dst[2 * i + 1]? = some hi ∧
          hi.toNat * 256 + lo.toNat = (62 * red.toNat + 255) / 510 * 2048 +
            (126 * green.toNat + 255) / 510 * 32 + (62 * blue.toNat + 255) / 510) ∧
    (s.lutReady = false →
      exec .compact s = .next { s with inFlight := none, responses := s.responses ++ [⟨0x00000002#32, []⟩] }) ∧
    (s.lutReady = true → r.srcLen.toNat % 3 ≠ 0 →
      exec .compact s = .next { s with inFlight := none, responses := s.responses ++ [⟨0x00000201#32, []⟩] }) ∧
    (decode r.cmd = .ok .compact ↔ r.cmd = 0x00000003#32) ∧
    (r.cmd.toNat % 256 = 3 → r.cmd ≠ 0x00000003#32 →
      step s = .next { s with inFlight := none, responses := s.responses ++
        [⟨if s.lutReady then 0x00000203#32 else 0x00000003#32, []⟩] })

/-- R140, R141: on a ready block `PALCHK` answers `0x00000300` when every index is strictly below the count and
`0x00000200` otherwise, for every length; before `LUTINIT` it is not ready; every count is legal in its encoding. The
corner cases of the rule are stated too. Nothing else of the state changes in any case. -/
def Obligations.PalchkFollowsItsRule : Prop :=
  ∀ (s : State) (r : Request) (count : BitVec 16), s.inFlight = some r → r.wellFormed = true →
    (s.lutReady = true → ∃ status,
      exec (.palchk count) s = .next { s with inFlight := none, responses := s.responses ++ [⟨status, []⟩] } ∧
      ((∀ index ∈ r.src, index.toNat < count.toNat) → status = 0x00000300#32) ∧
      (¬ (∀ index ∈ r.src, index.toNat < count.toNat) → status = 0x00000200#32) ∧
      (r.src = [] → status = 0x00000300#32) ∧ (count = 0#16 → r.src ≠ [] → status = 0x00000200#32) ∧
      (256 ≤ count.toNat → status = 0x00000300#32)) ∧
    (s.lutReady = false →
      exec (.palchk count) s = .next { s with inFlight := none, responses := s.responses ++ [⟨0x00000002#32, []⟩] }) ∧
    (decode r.cmd = .ok (.palchk count) ↔ r.cmd.toNat = count.toNat * 65536 + 4) ∧
    (r.cmd.toNat % 256 = 4 → r.cmd.toNat / 256 % 256 ≠ 0 →
      step s = .next { s with inFlight := none, responses := s.responses ++
        [⟨if s.lutReady then 0x00000203#32 else 0x00000003#32, []⟩] }) ∧
    (∀ index : Byte, inRange count index = true ↔ index.toNat < count.toNat)

/-- R141's last corner case: the order of the indices and their number do not matter, so two buffers that hold the same
values, in any order and any number of times, get the same response. -/
def Obligations.PalchkIgnoresOrderAndNumber : Prop :=
  ∀ (s : State) (r q : Request) (count : BitVec 16), r.wellFormed = true → q.wellFormed = true →
    (∀ index : Byte, index ∈ r.src ↔ index ∈ q.src) →
    ∃ t, exec (.palchk count) (s.accept r) = .next t ∧ exec (.palchk count) (s.accept q) = .next t

/-! ## Properties of the conversions -/

/-- R104 items 1 and 2: `EXPAND` turns `2·k` bytes into `3·k`, and the expansion of a concatenation is the concatenation
of the expansions, when the first part has even length. -/
def Obligations.ExpandOfConcatenation : Prop :=
  ∀ (lut888 : Lut Rgb888 16) (a b : List Byte), a.length % 2 = 0 →
    2 * (expandBytes lut888 a).length = 3 * a.length ∧
    expandBytes lut888 (a ++ b) = expandBytes lut888 a ++ expandBytes lut888 b

/-- R104 item 3 for whole transactions: on a good, ready block two `EXPAND` requests of even length that get the same
response carry the same payload. -/
def Obligations.ExpandIsInjective : Prop :=
  ∀ (s t : State) (r q : Request), s.Inv → s.lutReady = true → r.wellFormed = true → q.wellFormed = true →
    r.srcLen.toNat % 2 = 0 → q.srcLen.toNat % 2 = 0 →
    exec .expand (s.accept r) = .next t → exec .expand (s.accept q) = .next t → r.src = q.src

/-- R87 item 4, R104 item 4 and R123 item 3, for whole transactions: on a good, ready block the host issues `EXPAND` of
any even-length buffer and then `COMPACT` of the bytes it received; the second response carries the first request's
payload. -/
def Obligations.CompactUndoesExpand : Prop :=
  ∀ (s : State) (r : Request) (rest : List HostAction), s.Inv → s.lutReady = true → s.inFlight = none →
    r.cmd = 0x00000002#32 → r.wellFormed = true → r.srcLen.toNat % 2 = 0 → s.host = .issue r :: rest →
    ∃ dst t, step s = .next t ∧ t.host = rest ∧ t.responses = s.responses ++ [⟨0x00000200#32, dst⟩] ∧
      ∀ q : Request, q.cmd = 0x00000003#32 → q.src = dst → q.wellFormed = true →
        ∃ u, step { t with host := .issue q :: rest } = .next u ∧
          u.responses = s.responses ++ [⟨0x00000200#32, dst⟩, ⟨0x00000200#32, r.src⟩]

/-- R123 items 2 and 4: raising one channel byte, of any of the three, never lowers that channel's field and leaves the
other two fields alone; so raising several never lowers any; and compaction is lossy. -/
def Obligations.CompactIsMonotoneAndLossy : Prop :=
  let compact := compact888 lut5Contents lut6Contents
  (∀ red red' green blue : Byte, red ≤ red' → red5 (compact red green blue) ≤ red5 (compact red' green blue) ∧
    green6 (compact red' green blue) = green6 (compact red green blue) ∧
    blue5 (compact red' green blue) = blue5 (compact red green blue)) ∧
  (∀ red green green' blue : Byte, green ≤ green' → green6 (compact red green blue) ≤ green6 (compact red green' blue) ∧
    red5 (compact red green' blue) = red5 (compact red green blue) ∧
    blue5 (compact red green' blue) = blue5 (compact red green blue)) ∧
  (∀ red green blue blue' : Byte, blue ≤ blue' → blue5 (compact red green blue) ≤ blue5 (compact red green blue') ∧
    red5 (compact red green blue') = red5 (compact red green blue) ∧
    green6 (compact red green blue') = green6 (compact red green blue)) ∧
  (∀ red red' green green' blue blue' : Byte, red ≤ red' → green ≤ green' → blue ≤ blue' →
    red5 (compact red green blue) ≤ red5 (compact red' green' blue') ∧
    green6 (compact red green blue) ≤ green6 (compact red' green' blue') ∧
    blue5 (compact red green blue) ≤ blue5 (compact red' green' blue')) ∧
  expandBytes lut888Contents (compactBytes lut5Contents lut6Contents [1, 1, 1]) = [0, 0, 0]

/-! ## Errors -/

/-- R165: which code a well-formed request gets, by the first check that fails: illegal command, then not ready, then
length; and with none of them the command is performed with code 0. -/
def Obligations.FirstFailingCheckGivesTheCode : Prop :=
  ∀ (s : State) (r : Request), s.Inv → s.inFlight = some r → r.wellFormed = true →
    ∃ t resp, step s = .next t ∧ t.responses = s.responses ++ [resp] ∧
      (match decode r.cmd with
       | .error _ => resp.status.toNat % 16 = 3
       | .ok .lutinit => resp.status.toNat % 16 = if r.srcLen.toNat ≠ 0 then 1 else 0
       | .ok .expand => resp.status.toNat % 16 =
           if s.lutReady = false then 2 else if r.srcLen.toNat % 2 ≠ 0 then 1 else 0
       | .ok .compact => resp.status.toNat % 16 =
           if s.lutReady = false then 2 else if r.srcLen.toNat % 3 ≠ 0 then 1 else 0
       | .ok (.palchk _) => resp.status.toNat % 16 = if s.lutReady = false then 2 else 0) ∧
      (resp.status.toNat % 16 = 0 → ∃ i, decode r.cmd = .ok i ∧ exec i s = .next t)

/-- R166: a step on an issued request whose response carries an error code leaves the machine exactly as it was with the
request never issued, but for the response, which has `RESULT = 0` and no bytes. -/
def Obligations.ErrorsChangeNothing : Prop :=
  ∀ (s t : State) (r : Request) (rest : List HostAction) (resp : Response), s.inFlight = none →
    s.host = .issue r :: rest → step s = .next t → t.responses = s.responses ++ [resp] →
    resp.status.toNat % 16 ≠ 0 →
    t = { s with host := rest, responses := s.responses ++ [resp] } ∧ resp.dst = [] ∧
    resp.status.getLsbD 8 = false ∧ resp.status.getLsbD 9 = s.lutReady

/-- R28: the fields of the status word at their bit positions, and their meaning in the response of any step: `READY` is
`LUT_READY` after the transaction, `RESULT` is 1 only for a `PALCHK` without an error whose indices are all in range. -/
def Obligations.StatusWordFields : Prop :=
  (∀ (ready result : Bool) (err : ErrCode), (statusWord ready result err).getLsbD 9 = ready ∧
    (statusWord ready result err).getLsbD 8 = result ∧
    (statusWord ready result err).extractLsb' 0 4 = err.bits ∧ (statusWord ready result err).extractLsb' 4 4 = 0#4 ∧
    (statusWord ready result err).extractLsb' 10 22 = 0#22) ∧
  ∀ (s t : State) (r : Request) (resp : Response), s.inFlight = some r → step s = .next t →
    t.responses = s.responses ++ [resp] →
    (∃ result err, resp.status = statusWord t.lutReady result err) ∧
    (resp.status.getLsbD 8 = true ↔ resp.status.toNat % 16 = 0 ∧
      ∃ count, decode r.cmd = .ok (.palchk count) ∧ ∀ index ∈ r.src, index.toNat < count.toNat)

/-- R161: the codes of the errors, and a response whose `ERR` is a reserved code is not interpreted. -/
def Obligations.ErrorCodesReadBack : Prop :=
  (∀ code : ErrCode, ErrCode.ofBits? code.bits = some code) ∧
  (ErrCode.ok.bits = 0 ∧ ErrCode.invalidLength.bits = 1 ∧ ErrCode.notReady.bits = 2 ∧ ErrCode.illegalCmd.bits = 3) ∧
  (∀ r : Response, r.err? = none ↔ 4 ≤ r.status.toNat % 16) ∧
  ∀ (ready result : Bool) (err : ErrCode) (dst : List Byte), (Response.mk (statusWord ready result err) dst).err? = some err

/-! ## Invariants and whole-machine rules -/

/-- The invariant holds at reset (R30). The two clauses about the host, its contract and the responses it has, hold there
because the host's lists are empty, which is the model's choice (log entry 1, DESIGN CHOICE). -/
def Obligations.ResetMeetsTheInvariant : Prop :=
  State.reset.Inv ∧ State.reset.HostContract ∧ State.reset.ResponsesLegal

/-- R20, R25: every step keeps the invariant: `LUT_READY` says whether the three tables hold a value, and the value they
hold is the one of R86. -/
def Obligations.StepKeepsTheInvariant : Prop := ∀ s t : State, s.Inv → step s = .next t → t.Inv

/-- R28, R161, R166: every step keeps every response the host has received one the block may send: reserved status bits
0, no reserved error code, and no result and no bytes with an error. -/
def Obligations.ResponsesStayLegal : Prop :=
  ∀ s t : State, s.ResponsesLegal → step s = .next t → t.ResponsesLegal

/-- R29, R49: no transaction is in flight after a step: nothing of one survives its response. -/
def Obligations.NothingInFlightAfterAStep : Prop := ∀ s t : State, step s = .next t → t.inFlight = none

/-- R21 to R24: what changes the persistent state. A step either leaves all four items as they were, or performs a
`LUTINIT` with no payload and leaves them at their defined contents, or is a reset and clears them. -/
def Obligations.OnlyLutinitAndResetWriteTheTables : Prop :=
  ∀ s t : State, step s = .next t →
    (t.lutReady = s.lutReady ∧ t.lut5 = s.lut5 ∧ t.lut6 = s.lut6 ∧ t.lut888 = s.lut888) ∨
    ((∃ r, (s.inFlight = some r ∨ (s.inFlight = none ∧ s.host.head? = some (.issue r))) ∧ r.cmd = 0x00000001#32 ∧
        r.srcLen = 0#32) ∧
      t.lutReady = true ∧ t.lut5 = some lut5Contents ∧ t.lut6 = some lut6Contents ∧ t.lut888 = some lut888Contents) ∨
    (s.inFlight = none ∧ (s.host.head? = some .assertReset ∨ ∃ r, s.host.head? = some (.abort r)) ∧
      t.lutReady = false ∧ t.lut5 = none ∧ t.lut6 = none ∧ t.lut888 = none)

/-- R20: no value but the four persistent items survives from one transaction to the next: two states that agree on them
give the same request the same response, and agree on them again afterwards, whatever the host planned or received. -/
def Obligations.NothingElsePersists : Prop :=
  ∀ (s t u : State) (r : Request), s.lutReady = u.lutReady → s.lut5 = u.lut5 → s.lut6 = u.lut6 → s.lut888 = u.lut888 →
    s.inFlight = some r → u.inFlight = some r → step s = .next t →
    ∃ (v : State) (resp : Response), step u = .next v ∧ t.responses = s.responses ++ [resp] ∧
      v.responses = u.responses ++ [resp] ∧
      v.lutReady = t.lutReady ∧ v.lut5 = t.lut5 ∧ v.lut6 = t.lut6 ∧ v.lut888 = t.lut888

/-- R49: the host's plan is taken one action at a time, in order, and not at all while a transaction is in flight; the
responses the host has are only ever added to, at most one a step. R49 does not speak of resets: that the
plan and the responses survive one is the model's choice (log entry 3, DESIGN CHOICE), and that a request found in flight
is performed before the plan is looked at is DEDUCED (log entry 3). -/
def Obligations.HostActsInOrder : Prop :=
  ∀ s t : State, step s = .next t →
    (∀ r, s.inFlight = some r → t.host = s.host) ∧ (s.inFlight = none → t.host = s.host.tail) ∧
    (t.responses = s.responses ∨ ∃ resp, t.responses = s.responses ++ [resp])

/-- R182, R183: before the first `LUTINIT` every other well-formed legal request is `E_NOT_READY` and has no effect; a
`LUTINIT` with no payload answers `0x00000200` and leaves any block, whatever it held, good and ready. -/
def Obligations.LutinitComesFirst : Prop :=
  (∀ (s : State) (r : Request) (i : Instr), s.inFlight = some r → r.wellFormed = true → s.lutReady = false →
    decode r.cmd = .ok i → i ≠ .lutinit →
    step s = .next { s with inFlight := none, responses := s.responses ++ [⟨0x00000002#32, []⟩] }) ∧
  (∀ (s : State) (r : Request), s.inFlight = some r → r.wellFormed = true → r.cmd = 0x00000001#32 → r.srcLen = 0#32 →
    ∃ t, step s = .next t ∧ t.Inv ∧ t.lutReady = true ∧ t.responses = s.responses ++ [⟨0x00000200#32, []⟩])

/-- R67: a request whose payload does not hold exactly `SRC_LEN` bytes has no step, whatever its `CMD`. -/
def Obligations.IllFormedRequestsHaveNoStep : Prop :=
  ∀ (s : State) (r : Request), r.src.length ≠ r.srcLen.toNat →
    (s.inFlight = some r ∨ (s.inFlight = none ∧ s.host.head? = some (.issue r))) →
    step s = .refused .illFormedRequest

/-- A step runs the decoded command: with a request in flight whose `CMD` decodes to `i`, step is exec of `i`; from an
idle block the request the host issues next is taken first, and then the same. -/
def Obligations.StepRunsTheDecodedCommand : Prop :=
  (∀ (s : State) (r : Request) (i : Instr), s.inFlight = some r → decode r.cmd = .ok i → step s = exec i s) ∧
  (∀ (s : State) (r : Request) (rest : List HostAction) (i : Instr), s.inFlight = none → s.host = .issue r :: rest →
    decode r.cmd = .ok i → step s = exec i { s with host := rest, inFlight := some r })

/-- The same for a word of the opcode table placed by `withFetchWord`: the next step runs what the decoder reads from it,
on a well-formed request. The placing is the model's own interface (log entry 9). -/
def Obligations.PlacedTableWordRunsNext : Prop :=
  ∀ (s : State) (nbits w : Nat) (i : Instr), nbits ≤ 64 → decodeTableWord nbits w = some i →
    step (s.withFetchWord nbits w) = exec i (s.withFetchWord nbits w) ∧
    ∃ r, (s.withFetchWord nbits w).inFlight = some r ∧ r.wellFormed = true

/-- R54: on ready blocks the response to `EXPAND`, `COMPACT` and `PALCHK` is a function of the request alone: whatever
else two good, ready states hold, the same request adds the same response to both, and neither block changes. -/
def Obligations.ConversionsArePure : Prop :=
  ∀ (s u : State) (r : Request) (i : Instr), s.Inv → u.Inv → s.lutReady = true → u.lutReady = true →
    r.wellFormed = true → i ≠ .lutinit →
    ∃ resp, exec i (s.accept r) = .next { s with inFlight := none, responses := s.responses ++ [resp] } ∧
      exec i (u.accept r) = .next { u with inFlight := none, responses := u.responses ++ [resp] }

/-- R54: two requests other than `LUTINIT` on a good, ready block commute: issued in either order, each gets the same
response, and the block is the same afterwards. -/
def Obligations.ConversionsCommute : Prop :=
  ∀ (s : State) (r q : Request) (rest : List HostAction), s.Inv → s.lutReady = true → s.inFlight = none →
    r.wellFormed = true → q.wellFormed = true → decode r.cmd ≠ .ok .lutinit → decode q.cmd ≠ .ok .lutinit →
    ∃ t t' u u' respR respQ,
      step { s with host := .issue r :: .issue q :: rest } = .next t ∧ step t = .next t' ∧
      step { s with host := .issue q :: .issue r :: rest } = .next u ∧ step u = .next u' ∧
      t' = { s with host := rest, responses := s.responses ++ [respR, respQ] } ∧
      u' = { s with host := rest, responses := s.responses ++ [respQ, respR] }

/-- Nothing stops the block: from every good state whose host keeps its contract, a step answers a next state, and that
state is again good with the contract kept (R6: total on well-formed requests). -/
def Obligations.GoodBlockNeverStops : Prop :=
  ∀ s : State, s.Inv → s.HostContract → ∃ t, step s = .next t ∧ t.Inv ∧ t.HostContract

/-- R49, R166: from every good idle state whose host keeps its contract, the host's plan is carried out action by action,
in order. The step for an issued request is that request's own transaction, from the state the earlier actions left, and
adds exactly one response, so the responses come in the order of their requests; the step for a reset adds none. After as
many steps as the plan has actions, all of it is done. That plan and responses survive a reset is the model's choice (log
entry 3, DESIGN CHOICE). -/
def Obligations.EveryRequestIsAnsweredOnce : Prop :=
  ∀ s : State, s.Inv → s.HostContract → s.inFlight = none →
    (∀ (k : Nat) (action : HostAction), s.host[k]? = some action →
      ∃ t u : State, core.run k s = .next t ∧ core.run (k + 1) s = .next u ∧
        t.host = s.host.drop k ∧ u.host = s.host.drop (k + 1) ∧
        match action with
        | .issue r => step (t.accept r) = .next { u with host := t.host } ∧
            ∃ resp, u.responses = t.responses ++ [resp]
        | .abort _ => u.responses = t.responses
        | .assertReset => u.responses = t.responses) ∧
    ∃ t, core.run s.host.length s = .next t ∧ t.Inv ∧ t.host = [] ∧ t.inFlight = none ∧
      t.responses.length = s.responses.length + s.host.countP HostAction.wantsResponse

/-- R70: the assembler accepts exactly the lines whose count is at most 65535 and whose byte values are at most 255, and
every line that passes `AsmLine.wellFormed` is such a line; what it makes of one is a well-formed request with the line's
bytes as payload, and it decodes to the line's command; a raw word is passed through. That a raw word must fit 32 bits and
a list the 32-bit `SRC_LEN` is DEDUCED (log entry 15). -/
def Obligations.AssembledRequestsAreWellFormed : Prop :=
  (∀ (line : AsmLine) (r : Request), assemble line = some r → r.wellFormed = true ∧
    (match line with
     | .lutinit => decode r.cmd = .ok .lutinit ∧ r.src = []
     | .expand bytes => decode r.cmd = .ok .expand ∧ r.src.map BitVec.toNat = bytes
     | .compact bytes => decode r.cmd = .ok .compact ∧ r.src.map BitVec.toNat = bytes
     | .palchk count bytes => (∃ c, decode r.cmd = .ok (.palchk c) ∧ c.toNat = count) ∧ r.src.map BitVec.toNat = bytes
     | .cmd word0 bytes => r.cmd.toNat = word0 ∧ r.src.map BitVec.toNat = bytes)) ∧
  (∀ line : AsmLine, line.wellFormed = true → ∃ r, assemble line = some r) ∧
  (let bytesFit (bytes : List Nat) : Prop := (∀ b ∈ bytes, b ≤ 255) ∧ bytes.length < 4294967296
   assemble .lutinit ≠ none ∧
   (∀ bytes, assemble (.expand bytes) ≠ none ↔ bytesFit bytes) ∧
   (∀ bytes, assemble (.compact bytes) ≠ none ↔ bytesFit bytes) ∧
   (∀ count bytes, assemble (.palchk count bytes) ≠ none ↔ count ≤ 65535 ∧ bytesFit bytes) ∧
   (∀ word0 bytes, assemble (.cmd word0 bytes) ≠ none ↔ word0 < 4294967296 ∧ bytesFit bytes))
end

