-- ==== Sys2Proof/Laws/State.lean ====
section
/-! SUPPORT. One lemma per field per update of the state, so that no proof unfolds a record update. -/

namespace Sys2Proof.Machine

/-! ## Taking a request -/

@[simp] theorem State.accept_lutReady (s : State) (r : Request) : (s.accept r).lutReady = s.lutReady := rfl
@[simp] theorem State.accept_lut5 (s : State) (r : Request) : (s.accept r).lut5 = s.lut5 := rfl
@[simp] theorem State.accept_lut6 (s : State) (r : Request) : (s.accept r).lut6 = s.lut6 := rfl
@[simp] theorem State.accept_lut888 (s : State) (r : Request) : (s.accept r).lut888 = s.lut888 := rfl
@[simp] theorem State.accept_inFlight (s : State) (r : Request) : (s.accept r).inFlight = some r := rfl
@[simp] theorem State.accept_host (s : State) (r : Request) : (s.accept r).host = s.host := rfl
@[simp] theorem State.accept_responses (s : State) (r : Request) : (s.accept r).responses = s.responses := rfl

/-! ## Ending a transaction -/

@[simp] theorem State.respond_lutReady (s : State) (err : ErrCode) (result : Bool) (dst : List Byte) :
    (s.respond err result dst).lutReady = s.lutReady :=
    rfl
@[simp] theorem State.respond_lut5 (s : State) (err : ErrCode) (result : Bool) (dst : List Byte) :
    (s.respond err result dst).lut5 = s.lut5 :=
    rfl
@[simp] theorem State.respond_lut6 (s : State) (err : ErrCode) (result : Bool) (dst : List Byte) :
    (s.respond err result dst).lut6 = s.lut6 :=
    rfl
@[simp] theorem State.respond_lut888 (s : State) (err : ErrCode) (result : Bool) (dst : List Byte) :
    (s.respond err result dst).lut888 = s.lut888 :=
    rfl
@[simp] theorem State.respond_inFlight (s : State) (err : ErrCode) (result : Bool) (dst : List Byte) :
    (s.respond err result dst).inFlight = none :=
    rfl
@[simp] theorem State.respond_host (s : State) (err : ErrCode) (result : Bool) (dst : List Byte) :
    (s.respond err result dst).host = s.host :=
    rfl
@[simp] theorem State.respond_responses (s : State) (err : ErrCode) (result : Bool) (dst : List Byte) :
    (s.respond err result dst).responses = s.responses ++ [⟨statusWord s.lutReady result err, dst⟩] :=
    rfl

/-! ## Writing the tables -/

@[simp] theorem State.loadTables_lutReady (s : State) : s.loadTables.lutReady = true := rfl
@[simp] theorem State.loadTables_lut5 (s : State) : s.loadTables.lut5 = some lut5Contents := rfl
@[simp] theorem State.loadTables_lut6 (s : State) : s.loadTables.lut6 = some lut6Contents := rfl
@[simp] theorem State.loadTables_lut888 (s : State) : s.loadTables.lut888 = some lut888Contents := rfl
@[simp] theorem State.loadTables_inFlight (s : State) : s.loadTables.inFlight = s.inFlight := rfl
@[simp] theorem State.loadTables_host (s : State) : s.loadTables.host = s.host := rfl
@[simp] theorem State.loadTables_responses (s : State) : s.loadTables.responses = s.responses := rfl

/-! ## Reset -/

@[simp] theorem State.resetBlock_lutReady (s : State) : s.resetBlock.lutReady = false := rfl
@[simp] theorem State.resetBlock_lut5 (s : State) : s.resetBlock.lut5 = none := rfl
@[simp] theorem State.resetBlock_lut6 (s : State) : s.resetBlock.lut6 = none := rfl
@[simp] theorem State.resetBlock_lut888 (s : State) : s.resetBlock.lut888 = none := rfl
@[simp] theorem State.resetBlock_inFlight (s : State) : s.resetBlock.inFlight = none := rfl
@[simp] theorem State.resetBlock_host (s : State) : s.resetBlock.host = s.host := rfl
@[simp] theorem State.resetBlock_responses (s : State) : s.resetBlock.responses = s.responses := rfl

/-! ## Placing an opcode-table word -/

@[simp] theorem State.withFetchWord_lutReady (s : State) (nbits w : Nat) :
    (s.withFetchWord nbits w).lutReady = s.lutReady :=
    rfl
@[simp] theorem State.withFetchWord_lut5 (s : State) (nbits w : Nat) : (s.withFetchWord nbits w).lut5 = s.lut5 := rfl
@[simp] theorem State.withFetchWord_lut6 (s : State) (nbits w : Nat) : (s.withFetchWord nbits w).lut6 = s.lut6 := rfl
@[simp] theorem State.withFetchWord_lut888 (s : State) (nbits w : Nat) :
    (s.withFetchWord nbits w).lut888 = s.lut888 :=
    rfl
@[simp] theorem State.withFetchWord_inFlight (s : State) (nbits w : Nat) :
    (s.withFetchWord nbits w).inFlight = some (requestOfTableWord nbits w) :=
    rfl
@[simp] theorem State.withFetchWord_host (s : State) (nbits w : Nat) : (s.withFetchWord nbits w).host = s.host := rfl
@[simp] theorem State.withFetchWord_responses (s : State) (nbits w : Nat) :
    (s.withFetchWord nbits w).responses = s.responses :=
    rfl

end Sys2Proof.Machine
end

