-- ==== Sys2Proof/Laws/Ops.lean ====
section
/-! SUPPORT. What each shared operation can do, said once: a rule that runs it, and a rule that inverts an answer. -/

namespace Sys2Proof.Machine

variable {s t : State} {r : Request} {k : Host.Outcome State Fault Refusal}

theorem Request.wellFormed_iff : r.wellFormed = true ↔ r.src.length = r.srcLen.toNat := by
  simp [Request.wellFormed]

theorem raiseError_eq_next {code : ErrCode} : raiseError code s = .next t ↔ t = s.respond code false [] := by
  simp [raiseError, eq_comm]

/-- A well-formed request in flight is handed on. -/
theorem withRequest_run {f : Request → Host.Outcome State Fault Refusal} (flight : s.inFlight = some r)
    (wf : r.wellFormed = true) : withRequest s f = f r := by
  simp [withRequest, flight, wf]

/-- A request that is not well-formed is refused by name (R67). -/
theorem withRequest_illFormed {f : Request → Host.Outcome State Fault Refusal} (flight : s.inFlight = some r)
    (wf : r.wellFormed = false) : withRequest s f = .refused .illFormedRequest := by
  simp [withRequest, flight, wf]

theorem withRequest_eq_next {f : Request → Host.Outcome State Fault Refusal} :
    withRequest s f = .next t ↔ ∃ r, s.inFlight = some r ∧ r.wellFormed = true ∧ f r = .next t := by
  cases flight : s.inFlight with
  | none => simp [withRequest, flight]
  | some q => cases wf : q.wellFormed <;> simp [withRequest, flight, wf]

theorem requireReady_eq_next : requireReady s k = .next t ↔
    (s.lutReady = true ∧ k = .next t) ∨ (s.lutReady = false ∧ t = s.respond .notReady false []) := by
  cases ready : s.lutReady <;> simp [requireReady, ready, raiseError_eq_next]

theorem requireLength_eq_next {fits : Bool} : requireLength fits s k = .next t ↔
    (fits = true ∧ k = .next t) ∨ (fits = false ∧ t = s.respond .invalidLength false []) := by
  cases fits <;> simp [requireLength, raiseError_eq_next]

theorem withTable_eq_next {α : Type} {table : Option α} {f : α → Host.Outcome State Fault Refusal} :
    withTable table f = .next t ↔ ∃ value, table = some value ∧ f value = .next t := by
  cases table <;> simp [withTable]

theorem raiseIllegalCmd_eq_next : raiseIllegalCmd s = .next t ↔
    ∃ r, s.inFlight = some r ∧ r.wellFormed = true ∧ t = s.respond .illegalCmd false [] := by
  simp [raiseIllegalCmd, withRequest_eq_next, raiseError_eq_next]

end Sys2Proof.Machine
end

