-- ==== Sys2Proof/Laws/Exec.lean ====
section
/-! SUPPORT. Inversion: everything a command, a transaction and a step can do when they answer a next state. -/

namespace Sys2Proof.Machine

variable {s t : State}

/-- The ways a transaction can end, from the state with its request in flight: an error, which only responds; a
`LUTINIT`, which writes the tables; or another command's success on a ready block, which only responds. -/
inductive TransactionEnd (s t : State) : Prop where
  | error (code : ErrCode) (isError : code ≠ .ok) (eq : t = s.respond code false [])
  | tablesWritten (eq : t = s.loadTables.respond .ok false [])
  | success (result : Bool) (dst : List Byte) (ready : s.lutReady = true) (eq : t = s.respond .ok result dst)

/-- However a transaction ends, nothing of it stays in flight (R29). -/
theorem TransactionEnd.inFlight (done : TransactionEnd s t) : t.inFlight = none := by
  rcases done with ⟨_, _, rfl⟩ | ⟨rfl⟩ | ⟨_, _, _, rfl⟩ <;> rfl

/-- However a transaction ends, the host's plan is untouched. -/
theorem TransactionEnd.host (done : TransactionEnd s t) : t.host = s.host := by
  rcases done with ⟨_, _, rfl⟩ | ⟨rfl⟩ | ⟨_, _, _, rfl⟩ <;> rfl

/-- However a transaction ends, the host has got one more response. -/
theorem TransactionEnd.responses (done : TransactionEnd s t) : ∃ resp, t.responses = s.responses ++ [resp] := by
  rcases done with ⟨_, _, rfl⟩ | ⟨rfl⟩ | ⟨_, _, _, rfl⟩ <;> exact ⟨_, rfl⟩

/-- `LUTINIT` writes the tables or rejects its payload. -/
theorem execLutinit_cases (h : execLutinit s = .next t) :
    ∃ r, s.inFlight = some r ∧ r.wellFormed = true ∧
      ((r.srcLen.toNat = 0 ∧ t = s.loadTables.respond .ok false []) ∨
       (r.srcLen.toNat ≠ 0 ∧ t = s.respond .invalidLength false [])) := by
  obtain ⟨r, flight, wf, body⟩ := withRequest_eq_next.mp h
  refine ⟨r, flight, wf, ?_⟩
  rcases requireLength_eq_next.mp body with ⟨fits, done⟩ | ⟨fits, eq⟩
  · exact .inl ⟨by simpa using fits, (Host.Outcome.next.inj done).symm⟩
  · exact .inr ⟨by simpa using fits, eq⟩

/-- `EXPAND` expands the buffer, or raises the first error of R165 that applies. -/
theorem execExpand_cases (h : execExpand s = .next t) :
    ∃ r, s.inFlight = some r ∧ r.wellFormed = true ∧
      ((s.lutReady = false ∧ t = s.respond .notReady false []) ∨
       (s.lutReady = true ∧ r.srcLen.toNat % 2 ≠ 0 ∧ t = s.respond .invalidLength false []) ∨
       (s.lutReady = true ∧ r.srcLen.toNat % 2 = 0 ∧ ∃ lut888, s.lut888 = some lut888 ∧
         t = s.respond .ok false (expandBytes lut888 r.src))) := by
  obtain ⟨r, flight, wf, body⟩ := withRequest_eq_next.mp h
  refine ⟨r, flight, wf, ?_⟩
  rcases requireReady_eq_next.mp body with ⟨ready, rest⟩ | ⟨notReady, eq⟩
  · rcases requireLength_eq_next.mp rest with ⟨fits, done⟩ | ⟨fits, eq⟩
    · obtain ⟨lut888, table, eq⟩ := withTable_eq_next.mp done
      exact .inr (.inr ⟨ready, by simpa using fits, lut888, table, (Host.Outcome.next.inj eq).symm⟩)
    · exact .inr (.inl ⟨ready, by simpa using fits, eq⟩)
  · exact .inl ⟨notReady, eq⟩

/-- `COMPACT` packs the buffer, or raises the first error of R165 that applies. -/
theorem execCompact_cases (h : execCompact s = .next t) :
    ∃ r, s.inFlight = some r ∧ r.wellFormed = true ∧
      ((s.lutReady = false ∧ t = s.respond .notReady false []) ∨
       (s.lutReady = true ∧ r.srcLen.toNat % 3 ≠ 0 ∧ t = s.respond .invalidLength false []) ∨
       (s.lutReady = true ∧ r.srcLen.toNat % 3 = 0 ∧ ∃ lut5 lut6, s.lut5 = some lut5 ∧ s.lut6 = some lut6 ∧
         t = s.respond .ok false (compactBytes lut5 lut6 r.src))) := by
  obtain ⟨r, flight, wf, body⟩ := withRequest_eq_next.mp h
  refine ⟨r, flight, wf, ?_⟩
  rcases requireReady_eq_next.mp body with ⟨ready, rest⟩ | ⟨notReady, eq⟩
  · rcases requireLength_eq_next.mp rest with ⟨fits, done⟩ | ⟨fits, eq⟩
    · obtain ⟨lut5, table5, more⟩ := withTable_eq_next.mp done
      obtain ⟨lut6, table6, eq⟩ := withTable_eq_next.mp more
      exact .inr (.inr ⟨ready, by simpa using fits, lut5, lut6, table5, table6, (Host.Outcome.next.inj eq).symm⟩)
    · exact .inr (.inl ⟨ready, by simpa using fits, eq⟩)
  · exact .inl ⟨notReady, eq⟩

/-- `PALCHK` gives its verdict, or is not ready. -/
theorem execPalchk_cases {count : BitVec 16} (h : execPalchk count s = .next t) :
    ∃ r, s.inFlight = some r ∧ r.wellFormed = true ∧
      ((s.lutReady = false ∧ t = s.respond .notReady false []) ∨
       (s.lutReady = true ∧ t = s.respond .ok (allInRange count r.src) [])) := by
  obtain ⟨r, flight, wf, body⟩ := withRequest_eq_next.mp h
  refine ⟨r, flight, wf, ?_⟩
  rcases requireReady_eq_next.mp body with ⟨ready, done⟩ | ⟨notReady, eq⟩
  · exact .inr ⟨ready, (Host.Outcome.next.inj done).symm⟩
  · exact .inl ⟨notReady, eq⟩

/-- Every command that answers a next state ends its transaction in one of the three ways. -/
theorem exec_cases {i : Instr} (h : exec i s = .next t) :
    (∃ r, s.inFlight = some r ∧ r.wellFormed = true) ∧ TransactionEnd s t := by
  cases i with
  | lutinit =>
    obtain ⟨r, flight, wf, ⟨_, eq⟩ | ⟨_, eq⟩⟩ := execLutinit_cases h
    · exact ⟨⟨r, flight, wf⟩, .tablesWritten eq⟩
    · exact ⟨⟨r, flight, wf⟩, .error _ (by decide) eq⟩
  | expand =>
    obtain ⟨r, flight, wf, ⟨_, eq⟩ | ⟨_, _, eq⟩ | ⟨ready, _, _, _, eq⟩⟩ := execExpand_cases h
    · exact ⟨⟨r, flight, wf⟩, .error _ (by decide) eq⟩
    · exact ⟨⟨r, flight, wf⟩, .error _ (by decide) eq⟩
    · exact ⟨⟨r, flight, wf⟩, .success _ _ ready eq⟩
  | compact =>
    obtain ⟨r, flight, wf, ⟨_, eq⟩ | ⟨_, _, eq⟩ | ⟨ready, _, _, _, _, _, eq⟩⟩ := execCompact_cases h
    · exact ⟨⟨r, flight, wf⟩, .error _ (by decide) eq⟩
    · exact ⟨⟨r, flight, wf⟩, .error _ (by decide) eq⟩
    · exact ⟨⟨r, flight, wf⟩, .success _ _ ready eq⟩
  | palchk count =>
    obtain ⟨r, flight, wf, ⟨_, eq⟩ | ⟨ready, eq⟩⟩ := execPalchk_cases h
    · exact ⟨⟨r, flight, wf⟩, .error _ (by decide) eq⟩
    · exact ⟨⟨r, flight, wf⟩, .success _ _ ready eq⟩

/-- A transaction on the request in flight ends in one of the three ways. -/
theorem transact_cases {r : Request} (flight : s.inFlight = some r) (h : transact r s = .next t) :
    r.wellFormed = true ∧ TransactionEnd s t := by
  unfold transact at h
  split at h
  · obtain ⟨q, flight', wf, eq⟩ := raiseIllegalCmd_eq_next.mp h
    obtain rfl : r = q := Option.some.inj (flight.symm.trans flight')
    exact ⟨wf, .error _ (by decide) eq⟩
  · obtain ⟨⟨q, flight', wf⟩, done⟩ := exec_cases h
    obtain rfl : r = q := Option.some.inj (flight.symm.trans flight')
    exact ⟨wf, done⟩

/-- What one step can do: finish the request in flight, stay idle, perform the request the host issues next, or be
reset, with or without a request in flight. -/
theorem step_cases (h : step s = .next t) :
    (∃ r, s.inFlight = some r ∧ r.wellFormed = true ∧ transact r s = .next t ∧ TransactionEnd s t) ∨
    (s.inFlight = none ∧ s.host = [] ∧ t = s) ∨
    (∃ r rest, s.inFlight = none ∧ s.host = .issue r :: rest ∧ r.wellFormed = true ∧
      transact r ({ s with host := rest }.accept r) = .next t ∧ TransactionEnd ({ s with host := rest }.accept r) t) ∨
    (∃ rest, s.inFlight = none ∧ (s.host = .assertReset :: rest ∨ ∃ r, s.host = .abort r :: rest) ∧
      t = { s with host := rest }.resetBlock) := by
  unfold step at h
  split at h
  · next r flight =>
    obtain ⟨wf, done⟩ := transact_cases flight h
    exact .inl ⟨r, flight, wf, h, done⟩
  · next idle =>
    split at h
    · next noAction => exact .inr (.inl ⟨idle, noAction, (Host.Outcome.next.inj h).symm⟩)
    · next action rest plan =>
      cases action with
      | issue r =>
        obtain ⟨wf, done⟩ := transact_cases (State.accept_inFlight _ r) h
        exact .inr (.inr (.inl ⟨r, rest, idle, plan, wf, h, done⟩))
      | abort r => exact .inr (.inr (.inr ⟨rest, idle, .inr ⟨r, plan⟩, (Host.Outcome.next.inj h).symm⟩))
      | assertReset => exact .inr (.inr (.inr ⟨rest, idle, .inl plan, (Host.Outcome.next.inj h).symm⟩))

/-- A run whose first step is known goes on from the state that step answers. -/
theorem run_succ {k : Nat} (h : step s = .next t) : core.run (k + 1) s = core.run k t := by
  have first : core.step s = .next t := h
  simp only [Host.Core.run, first]

end Sys2Proof.Machine
end

