-- ==== Sys2Proof/Laws/Lut.lean ====
section
/-! SUPPORT. A table file reads back what was written, and what the three tables of the block read as. -/

namespace Sys2Proof.Machine

/-- Reading an entry of a table file written by `f` gives `f` of its index. -/
@[simp] theorem Lut.read_build {α : Type} :
    ∀ {n : Nat} (f : BitVec n → α) (v : BitVec n), (Lut.build n f).read v = f v
  | 0, f, v => by simp [Lut.build, Lut.read, BitVec.eq_nil v]
  | n + 1, f, v => by
    have whole := BitVec.cons_msb_setWidth v
    cases top : v.msb <;> rw [top] at whole <;> simp [Lut.build, Lut.read, top, Lut.read_build, whole]

@[simp] theorem lut5Contents_read (v : Byte) : lut5Contents.read v = q5 v := Lut.read_build q5 v
@[simp] theorem lut6Contents_read (v : Byte) : lut6Contents.read v = q6 v := Lut.read_build q6 v
@[simp] theorem lut888Contents_read (w : Rgb565) : lut888Contents.read w = x888 w := Lut.read_build x888 w

/-- What the parallel expander gives on the block's own table (R101). -/
@[simp] theorem expand565_contents (w : Rgb565) : expand565 lut888Contents w = x888 w := lut888Contents_read w

/-- What the compactor gives on the block's own tables (R121). -/
@[simp] theorem compact888_contents (red green blue : Byte) :
    compact888 lut5Contents lut6Contents red green blue = pack565 (q5 red) (q6 green) (q5 blue) := by
  simp [compact888]

end Sys2Proof.Machine
end

