-- ==== Sys2Proof/Laws/Words.lean ====
section
/-! SUPPORT. The numbers the words and fields of the model stand for: every concatenation and every field as exact
arithmetic on natural numbers, so that a proof about words is left to `omega`. -/

namespace Sys2Proof

theorem toNat_concat {m n : Nat} (x : BitVec m) (y : BitVec n) : (x ++ y).toNat = x.toNat * 2 ^ n + y.toNat := by
  rw [BitVec.toNat_append, ← Nat.shiftLeft_add_eq_or_of_lt y.isLt, Nat.shiftLeft_eq]

theorem toNat_field {m : Nat} (start width : Nat) (x : BitVec m) :
    (x.extractLsb' start width).toNat = x.toNat / 2 ^ start % 2 ^ width := by
  simp [Nat.shiftRight_eq_div_pow]

/-! ## The command word -/

theorem opcField_toNat (cmd : Word) : (opcField cmd).toNat = cmd.toNat % 256 := by
  simp [opcField]

theorem rsvField_toNat (cmd : Word) : (rsvField cmd).toNat = cmd.toNat / 256 % 256 :=
  toNat_field 8 8 cmd

theorem immField_toNat (cmd : Word) : (immField cmd).toNat = cmd.toNat / 65536 := by
  have := cmd.isLt
  rw [immField, toNat_field]
  omega

theorem commandWord_toNat (imm : BitVec 16) (opc : BitVec 8) :
    (commandWord imm opc).toNat = imm.toNat * 65536 + opc.toNat := by
  have whole : (commandWord imm opc).toNat = (imm ++ 0#8 ++ opc).toNat := rfl
  rw [whole, toNat_concat, toNat_concat]
  simp
  omega

theorem wordOfBytes_toNat (b0 b1 b2 b3 : Byte) : (wordOfBytes b0 b1 b2 b3).toNat =
    b0.toNat + 256 * b1.toNat + 65536 * b2.toNat + 16777216 * b3.toNat := by
  have whole : (wordOfBytes b0 b1 b2 b3).toNat = (b3 ++ b2 ++ b1 ++ b0).toNat := rfl
  rw [whole, toNat_concat, toNat_concat, toNat_concat]
  omega

/-- A word is made again of its four bytes (R69, decision D15). -/
theorem wordOfBytes_bytes (w : Word) : wordOfBytes (w.extractLsb' 0 8) (w.extractLsb' 8 8) (w.extractLsb' 16 8)
    (w.extractLsb' 24 8) = w := by
  apply BitVec.eq_of_toNat_eq
  have := w.isLt
  simp only [wordOfBytes_toNat, toNat_field]
  omega

end Sys2Proof

namespace Sys2Proof.Machine

/-! ## The status word -/

theorem statusWord_toNat (ready result : Bool) (err : ErrCode) :
    (statusWord ready result err).toNat = ready.toNat * 512 + result.toNat * 256 + err.bits.toNat := by
  have whole : (statusWord ready result err).toNat =
      (BitVec.ofBool ready ++ BitVec.ofBool result ++ 0#4 ++ err.bits).toNat % 2 ^ 32 := by
    simp [statusWord]
  rw [whole, toNat_concat, toNat_concat, toNat_concat]
  have := err.bits.isLt
  cases ready <;> cases result <;> simp <;> omega

/-- `RESULT` is bit 8 of the status word (R28). -/
@[simp] theorem statusWord_result (ready result : Bool) (err : ErrCode) : (statusWord ready result err)[8] = result := by
  cases ready <;> cases result <;> cases err <;> decide

/-- `READY` is bit 9 of the status word (R28). -/
@[simp] theorem statusWord_ready (ready result : Bool) (err : ErrCode) : (statusWord ready result err)[9] = ready := by
  cases ready <;> cases result <;> cases err <;> decide

/-- `ERR` is bits 3:0 of the status word (R28). -/
theorem statusWord_err (ready result : Bool) (err : ErrCode) :
    (statusWord ready result err).toNat % 16 = err.bits.toNat := by
  cases ready <;> cases result <;> cases err <;> decide

/-! ## Pixels -/

theorem word565_toNat (lo hi : Byte) : (word565 lo hi).toNat = hi.toNat * 256 + lo.toNat :=
  toNat_concat hi lo

theorem red5_toNat (w : Rgb565) : (red5 w).toNat = w.toNat / 2048 := by
  have := w.isLt
  rw [red5, toNat_field]
  omega

theorem green6_toNat (w : Rgb565) : (green6 w).toNat = w.toNat / 32 % 64 :=
  toNat_field 5 6 w

theorem blue5_toNat (w : Rgb565) : (blue5 w).toNat = w.toNat % 32 := by
  simp [blue5]

theorem pack565_toNat (r : BitVec 5) (g : BitVec 6) (b : BitVec 5) :
    (pack565 r g b).toNat = r.toNat * 2048 + g.toNat * 32 + b.toNat := by
  have whole : (pack565 r g b).toNat = (r ++ g ++ b).toNat := rfl
  rw [whole, toNat_concat, toNat_concat]
  omega

/-- The packing undoes the bit-field decoder (R100). -/
@[simp] theorem pack565_fields (w : Rgb565) : pack565 (red5 w) (green6 w) (blue5 w) = w := by
  apply BitVec.eq_of_toNat_eq
  simp only [pack565_toNat, red5_toNat, green6_toNat, blue5_toNat]
  omega

@[simp] theorem red5_pack565 (r : BitVec 5) (g : BitVec 6) (b : BitVec 5) : red5 (pack565 r g b) = r := by
  apply BitVec.eq_of_toNat_eq
  have := g.isLt
  have := b.isLt
  simp only [pack565_toNat, red5_toNat]
  omega

@[simp] theorem green6_pack565 (r : BitVec 5) (g : BitVec 6) (b : BitVec 5) : green6 (pack565 r g b) = g := by
  apply BitVec.eq_of_toNat_eq
  have := g.isLt
  have := b.isLt
  simp only [pack565_toNat, green6_toNat]
  omega

@[simp] theorem blue5_pack565 (r : BitVec 5) (g : BitVec 6) (b : BitVec 5) : blue5 (pack565 r g b) = b := by
  apply BitVec.eq_of_toNat_eq
  have := b.isLt
  simp only [pack565_toNat, blue5_toNat]
  omega

/-! ## The table formulas in the spec's integer form -/

theorem q5_toNat (v : Byte) : (q5 v).toNat = (62 * v.toNat + 255) / 510 := by
  have bound := v.isLt
  have numerator : 2 * (v.toNat * 31) = 62 * v.toNat := by omega
  rw [q5, roundHalfUp, numerator, BitVec.toNat_ofNat, Nat.mod_eq_of_lt (by omega)]

theorem q6_toNat (v : Byte) : (q6 v).toNat = (126 * v.toNat + 255) / 510 := by
  have bound := v.isLt
  have numerator : 2 * (v.toNat * 63) = 126 * v.toNat := by omega
  rw [q6, roundHalfUp, numerator, BitVec.toNat_ofNat, Nat.mod_eq_of_lt (by omega)]

theorem x5_toNat (b : BitVec 5) : (x5 b).toNat = (510 * b.toNat + 31) / 62 := by
  have bound := b.isLt
  have numerator : 2 * (b.toNat * 255) = 510 * b.toNat := by omega
  rw [x5, roundHalfUp, numerator, BitVec.toNat_ofNat, Nat.mod_eq_of_lt (by omega)]

theorem x6_toNat (g : BitVec 6) : (x6 g).toNat = (510 * g.toNat + 63) / 126 := by
  have bound := g.isLt
  have numerator : 2 * (g.toNat * 255) = 510 * g.toNat := by omega
  rw [x6, roundHalfUp, numerator, BitVec.toNat_ofNat, Nat.mod_eq_of_lt (by omega)]

theorem x888_toNat (w : Rgb565) : (x888 w).toNat =
    (x5 (red5 w)).toNat * 65536 + (x6 (green6 w)).toNat * 256 + (x5 (blue5 w)).toNat := by
  have whole : (x888 w).toNat = (x5 (red5 w) ++ x6 (green6 w) ++ x5 (blue5 w)).toNat := rfl
  rw [whole, toNat_concat, toNat_concat]
  omega

/-- The three bytes of an expanded pixel are its three channels (R43, R84). -/
theorem bytes888_x888 (w : Rgb565) : bytes888 (x888 w) = [x5 (red5 w), x6 (green6 w), x5 (blue5 w)] := by
  have red := (x5 (red5 w)).isLt
  have green := (x6 (green6 w)).isLt
  have blue := (x5 (blue5 w)).isLt
  simp only [bytes888, List.cons.injEq, and_true]
  refine ⟨?_, ?_, ?_⟩ <;>
  · apply BitVec.eq_of_toNat_eq
    simp only [toNat_field, x888_toNat]
    omega

end Sys2Proof.Machine
end

