-- ==== Sys2Proof/Laws/PerInstr.lean ====
section
/-! SUPPORT. The encoder against the opcode table, one lemma per command. -/

namespace Sys2Proof.Laws.TableRow

/-- The `mask` of a command's row of spec/opcode_table.json (R64). -/
def mask : Instr → Word
  | .lutinit => 0xFFFFFFFF
  | .expand => 0xFFFFFFFF
  | .compact => 0xFFFFFFFF
  | .palchk _ => 0x0000FFFF

/-- The `match` of a command's row of spec/opcode_table.json (R64). -/
def pattern : Instr → Word
  | .lutinit => 0x00000001
  | .expand => 0x00000002
  | .compact => 0x00000003
  | .palchk _ => 0x00000004

/-- A command's encoding lies in its own row of the opcode table. -/
def Statement (i : Instr) : Prop := encode i &&& mask i = pattern i

theorem lutinit : Statement .lutinit := by unfold Statement; decide
theorem expand : Statement .expand := by unfold Statement; decide
theorem compact : Statement .compact := by unfold Statement; decide
theorem palchk (count : BitVec 16) : Statement (.palchk count) := by
  apply BitVec.eq_of_toNat_eq
  rw [BitVec.toNat_and, encode, mask, pattern, commandWord_toNat]
  exact (Nat.and_two_pow_sub_one_eq_mod _ 16).trans (by simp)

end Sys2Proof.Laws.TableRow
end

