-- ==== Sys2Proof/Laws/Pixels.lean ====
section
/-! SUPPORT. Pixels of a buffer: how the readers and the two conversions act on one more pixel, and their lengths. -/

namespace Sys2Proof.Machine

@[simp] theorem pixels565_nil : pixels565 [] = [] := rfl
@[simp] theorem pixels565_tail (lo : Byte) : pixels565 [lo] = [] := rfl
@[simp] theorem pixels565_pixel (lo hi : Byte) (rest : List Byte) :
    pixels565 (lo :: hi :: rest) = word565 lo hi :: pixels565 rest := rfl

@[simp] theorem pixels888_nil : pixels888 [] = [] := rfl
@[simp] theorem pixels888_tail1 (red : Byte) : pixels888 [red] = [] := rfl
@[simp] theorem pixels888_tail2 (red green : Byte) : pixels888 [red, green] = [] := rfl
@[simp] theorem pixels888_pixel (red green blue : Byte) (rest : List Byte) :
    pixels888 (red :: green :: blue :: rest) = (red, green, blue) :: pixels888 rest := rfl

variable {lut888 : Lut Rgb888 16} {lut5 : Lut (BitVec 5) 8} {lut6 : Lut (BitVec 6) 8}

@[simp] theorem expandBytes_nil : expandBytes lut888 [] = [] := rfl
@[simp] theorem expandBytes_pixel (lo hi : Byte) (rest : List Byte) :
    expandBytes lut888 (lo :: hi :: rest) =
      bytes888 (expand565 lut888 (word565 lo hi)) ++ expandBytes lut888 rest := by
  simp [expandBytes]

@[simp] theorem compactBytes_nil : compactBytes lut5 lut6 [] = [] := rfl
@[simp] theorem compactBytes_pixel (red green blue : Byte) (rest : List Byte) :
    compactBytes lut5 lut6 (red :: green :: blue :: rest) =
      bytes565 (compact888 lut5 lut6 red green blue) ++ compactBytes lut5 lut6 rest := by
  simp [compactBytes]

@[simp] theorem bytes888_length (v : Rgb888) : (bytes888 v).length = 3 := rfl
@[simp] theorem bytes565_length (w : Rgb565) : (bytes565 w).length = 2 := rfl

/-- A buffer holds one RGB565 pixel for every two bytes (R41). -/
theorem pixels565_length : ∀ src : List Byte, (pixels565 src).length = src.length / 2
  | [] => rfl
  | [_] => by simp
  | _ :: _ :: rest => by simp [pixels565_length rest]; omega

/-- A buffer holds one RGB888 pixel for every three bytes (R43). -/
theorem pixels888_length : ∀ src : List Byte, (pixels888 src).length = src.length / 3
  | [] => rfl
  | [_] => by simp
  | [_, _] => by simp
  | _ :: _ :: _ :: rest => by simp [pixels888_length rest]; omega

end Sys2Proof.Machine
end

