-- ==== Sys2Proof/Tests/Slice0.lean ====
section
/-! SUPPORT. The model's own tests, and a witness for the hypotheses of every statement. Expected results are the spec's:
its worked examples and its derived vectors (spec/95_test_vectors.md), cited at each test. -/

namespace Sys2Proof.Tests

open Sys2Proof.Machine

/-! ## Small states and readings of an outcome -/

/-- The block just after its first `LUTINIT`, with the host's log emptied. -/
def ready : State := State.reset.loadTables

/-- A request with its own length. -/
def req (cmd : Word) (src : List Byte) : Request := ⟨cmd, BitVec.ofNat 32 src.length, src⟩

/-- The responses after an outcome, when it is a next state. -/
def responsesOf : Host.Outcome State Fault Refusal → Option (List Response)
  | .next t => some t.responses
  | .fault _ => none
  | .refused _ => none

/-- What one step answers to a request in flight. -/
def answer (s : State) (cmd : Word) (src : List Byte) : Option (List Response) := responsesOf (step (s.accept (req cmd src)))

theorem ready_inv : ready.Inv := ⟨by simp [ready], by simp [ready]⟩
theorem reset_inv : State.reset.Inv := ⟨by simp [State.reset], by simp [State.reset]⟩

/-! ## Well-formedness smoke tests -/

theorem test_asm_count_too_large : (AsmLine.palchk 65536 []).wellFormed = false := by decide
theorem test_asm_count_largest : (AsmLine.palchk 65535 [255]).wellFormed = true := by decide
theorem test_asm_palchk_byte_too_large : (AsmLine.palchk 4 [256]).wellFormed = false := by decide
theorem test_asm_expand_byte_too_large : (AsmLine.expand [0, 256]).wellFormed = false := by decide
theorem test_asm_compact_byte_too_large : (AsmLine.compact [256, 0, 0]).wellFormed = false := by decide
theorem test_asm_word_too_large : (AsmLine.cmd (2 ^ 32) []).wellFormed = false := by decide
theorem test_asm_cmd_byte_too_large : (AsmLine.cmd 1 [300]).wellFormed = false := by decide
/-- The list-length check: a list that `SRC_LEN` cannot count is refused. -/
theorem test_asm_list_too_long (bytes : List Nat) (long : 2 ^ 32 ≤ bytes.length) : asmBytesWellFormed bytes = false := by
  have : ¬ bytes.length < 2 ^ Config.lenWidth := Nat.not_lt.mpr long
  simp [asmBytesWellFormed, this]
/-- R67: one byte too few, one too many. -/
theorem test_request_short : (Request.mk 2 3 [0, 0]).wellFormed = false := by decide
theorem test_request_long : (Request.mk 2 1 [0, 0]).wellFormed = false := by decide
theorem test_request_exact : (Request.mk 2 2 [0, 0]).wellFormed = true := by decide

/-! ## Decoding, by words written out bit by bit from the opcode map (R64) -/

theorem test_decode_lutinit : decode 0b0000000000000000_00000000_00000001#32 = .ok .lutinit := by decide
theorem test_decode_expand : decode 0b0000000000000000_00000000_00000010#32 = .ok .expand := by decide
theorem test_decode_compact : decode 0b0000000000000000_00000000_00000011#32 = .ok .compact := by decide
theorem test_decode_palchk : decode 0b0000000011111111_00000000_00000100#32 = .ok (.palchk 255#16) := by decide
theorem test_decode_palchk_top_bit : decode 0b1000000000000000_00000000_00000100#32 = .ok (.palchk 32768#16) := by decide
/-- spec/95_test_vectors.md 2.6, the illegal rows. -/
theorem test_decode_illegal :
    [decode 0x00000000, decode 0x00000101, decode 0x00010001, decode 0x80000002, decode 0xFFFF8004, decode 0x00000005,
      decode 0x000000FF] =
    [.error .reservedOpcode, .error .reservedField, .error .reservedImmediate, .error .reservedImmediate,
      .error .reservedField, .error .reservedOpcode, .error .reservedOpcode] := by decide
/-- The descriptor's bytes, `CMD` first and least significant byte first; a payload byte is left over. -/
theorem test_decode_bytes : decodeBytes [0x04, 0x00, 0x34, 0x12, 0x01, 0x00, 0x00, 0x00, 0x07] =
    .ok (.palchk 0x1234, 1, [0x07]) := by decide
theorem test_decode_bytes_short : decodeBytes [0x01, 0x00, 0x00, 0x00, 0x00, 0x00, 0x00] = .error .shortDescriptor := by decide
theorem test_decode_table_word : decodeTableWord 32 0xABCD0004 = some (.palchk 0xABCD) := by decide

/-! ## The commands -/

/-- R86, worked example. -/
theorem test_lutinit_from_reset : answer State.reset 0x00000001 [] = some [⟨0x00000200, []⟩] ∧
    lut5Contents.read 255 = 31 ∧ lut6Contents.read 128 = 32 ∧ lut888Contents.read 0xF800 = 0xFF0000 := by decide
/-- spec/95_test_vectors.md 2.7: a payload is refused, not ready and ready. -/
theorem test_lutinit_payload : answer State.reset 0x00000001 [0x00] = some [⟨0x00000001, []⟩] ∧
    answer ready 0x00000001 [0x00] = some [⟨0x00000201, []⟩] := by decide
/-- spec/95_test_vectors.md 2.3 and 2.2: two pixels, and the byte-order trap. -/
theorem test_expand_pixels : answer ready 0x00000002 [0x34, 0x12, 0xF8, 0x00] =
    some [⟨0x00000200, [16, 69, 165, 0, 28, 197]⟩] := by decide
/-- spec/95_test_vectors.md 2.3: an odd tail refuses the whole buffer; not ready comes before length. -/
theorem test_expand_errors : answer ready 0x00000002 [0x00, 0xF8, 0xE0] = some [⟨0x00000201, []⟩] ∧
    answer State.reset 0x00000002 [0x00] = some [⟨0x00000002, []⟩] := by decide
/-- spec/95_test_vectors.md 2.4: channels told apart by three different values; the green split between the bytes. -/
theorem test_compact_pixels : answer ready 0x00000003 [12, 34, 56, 0, 255, 0] =
    some [⟨0x00000200, [0x07, 0x09, 0xE0, 0x07]⟩] := by decide
/-- spec/95_test_vectors.md 2.4. -/
theorem test_compact_errors : answer ready 0x00000003 [1, 2, 3, 4] = some [⟨0x00000201, []⟩] ∧
    answer ready 0x00000103 [255, 0, 0] = some [⟨0x00000203, []⟩] := by decide
/-- spec/95_test_vectors.md 2.5: 255 is out of range of a count of 255 and in range of one of 256. -/
theorem test_palchk_bound : answer ready 0x00FF0004 [254, 255] = some [⟨0x00000200, []⟩] ∧
    answer ready 0x01000004 [255] = some [⟨0x00000300, []⟩] := by decide
/-- spec/95_test_vectors.md 2.5: an empty buffer is in range of an empty palette; the bad index may come first. -/
theorem test_palchk_empty : answer ready 0x00000004 [] = some [⟨0x00000300, []⟩] ∧
    answer ready 0x00040004 [9, 0, 1] = some [⟨0x00000200, []⟩] := by decide
/-- spec/95_test_vectors.md 2.7: illegal before not ready and before length. -/
theorem test_error_priority : answer State.reset 0x00010002 [0x00] = some [⟨0x00000003, []⟩] ∧
    answer State.reset 0x00000005 [] = some [⟨0x00000003, []⟩] := by decide
/-- Program P5: a reset aborts `LUTINIT`, and `EXPAND` is then not ready. -/
theorem test_reset_aborts : responsesOf (core.run 2 { ready with
    host := [.abort (req 0x00000001 []), .issue (req 0x00000002 [0x00, 0xF8])] }) = some [⟨0x00000002, []⟩] := by decide

/-! ## The assembler (R70, spec/95_test_vectors.md P3) -/

theorem test_parse_palchk : parseLine "PALCHK 4, [0, 0x1F, 2] ; a comment".toList = some (.palchk 4 [0, 31, 2]) := by decide
theorem test_parse_cmd : parseLine ".cmd 0x00010001, []".toList = some (.cmd 65537 []) := by decide
theorem test_parse_bad_list : parseLine "EXPAND [1, ]".toList = none := by decide
theorem test_assemble_palchk : assemble (.palchk 4 [0, 1, 2, 3]) = some ⟨0x00040004, 4, [0, 1, 2, 3]⟩ := by decide
theorem test_response_text : (Response.mk 0x00000200 [255, 0, 40]).text =
    "-> STATUS=0x00000200, DST=[255, 0, 40]".toList := by decide

/-! ## Witnesses: for every statement with hypotheses, a concrete state and operands that meet them all -/

/-- `ready` with a request in flight. -/
def busy (cmd : Word) (src : List Byte) : State := ready.accept (req cmd src)

/-- `ready` with the host's next actions. -/
def planned (actions : List HostAction) : State := { ready with host := actions }

theorem busy_inv (cmd : Word) (src : List Byte) : (busy cmd src).Inv := ⟨by simp [busy, ready], by simp [busy, ready]⟩
theorem planned_inv (actions : List HostAction) : (planned actions).Inv :=
  ⟨by simp [planned, ready], by simp [planned, ready]⟩

theorem witness_ResetClearsTheBlock :
    (planned [.assertReset]).inFlight = none ∧ (planned [.assertReset]).host = .assertReset :: [] ∧
    (req 1 []).wellFormed = true ∧ (req 5 [7]).wellFormed = true := by decide

theorem witness_ResetAbortsTheTransaction :
    (planned [.abort (req 1 [])]).inFlight = none ∧ (req 1 []).wellFormed = true ∧
    (planned [.abort (req 1 [])]).host = .abort (req 1 []) :: [] ∧
    (req 2 [0]).wellFormed = true ∧ decode (req 2 [0]).cmd = .ok .expand ∧ Instr.expand ≠ .lutinit := by decide

/-- An asserted reset, and an abort of a well-formed and of an ill-formed request. -/
theorem witness_ResetLeavesTheHostsLists :
    let illFormed : Request := ⟨2, 3, []⟩
    illFormed.wellFormed = false ∧
    [HostAction.assertReset, .abort (req 1 []), .abort illFormed].all (fun action =>
      (planned [action, .assertReset]).inFlight == none &&
      (planned [action, .assertReset]).host == action :: [.assertReset]) = true := by decide

theorem witness_AbortedLutinitLeavesNotReady :
    let s := planned [.abort (req 1 []), .issue (req 2 [0x00, 0xF8])]
    s.inFlight = none ∧ (req 1 []).cmd = 0x00000001#32 ∧ (req 2 [0x00, 0xF8]).cmd = 0x00000002#32 ∧
    (req 2 [0x00, 0xF8]).wellFormed = true ∧ s.host = .abort (req 1 []) :: .issue (req 2 [0x00, 0xF8]) :: [] := by decide

theorem witness_IdleBlockKeepsItsState : ready.inFlight = none ∧ ready.host = [] := ⟨rfl, rfl⟩

theorem witness_DecodedWordIsItsEncoding : decode 0xFFFF0004#32 = .ok (.palchk 65535#16) := by decide

theorem witness_IllegalCommandsAreRefused :
    let requests := [req 0x00000000 [], req 0x00000005 [], req 0x000000FF [], req 0xFFFF8004 [], req 0x80000002 []]
    requests.all (fun r => r.wellFormed && (decode r.cmd matches .error _)) = true ∧
    requests.all (fun r => (ready.accept r).inFlight == some r) = true := by decide

theorem witness_RequestBytesRoundTrip : decode (req 2 [0x00, 0xF8]).cmd = .ok .expand := by decide

/-- Both ends of every range: an integer within 1/2 of the value rounded. -/
theorem witness_RoundingHasNoTies :
    |((255#8).toNat : ℚ) * 31 / 255 - (31 : ℤ)| ≤ 1 / 2 ∧ |((255#8).toNat : ℚ) * 63 / 255 - (63 : ℤ)| ≤ 1 / 2 ∧
    |((31#5).toNat : ℚ) * 255 / 31 - (255 : ℤ)| ≤ 1 / 2 ∧ |((63#6).toNat : ℚ) * 255 / 63 - (255 : ℤ)| ≤ 1 / 2 ∧
    |((0#8).toNat : ℚ) * 31 / 255 - (0 : ℤ)| ≤ 1 / 2 ∧ |((0#6).toNat : ℚ) * 255 / 63 - (0 : ℤ)| ≤ 1 / 2 := by norm_num

theorem witness_TableProperties : 0#8 ≤ 255#8 ∧ 30#5 < 31#5 ∧ 62#6 < 63#6 := by decide

theorem witness_PixelByteOrders :
    let src : List Byte := [0x34, 0x12, 0xF8, 0x00]
    src[2 * 1]? = some 0xF8 ∧ src[2 * 1 + 1]? = some 0x00 ∧ (pixels888 src)[0]? = some (0x34, 0x12, 0xF8) := by decide

/-- No payload, a payload of one byte, and an illegal neighbour of the encoding. -/
theorem witness_LutinitFollowsItsRule :
    [req 0x00000001 [], req 0x00000001 [7], req 0x00010001 [], req 0x00000101 []].all (fun r => r.wellFormed &&
      (State.reset.accept r).inFlight == some r && r.cmd.toNat % 256 == 1) = true ∧
    (req 1 []).srcLen = 0#32 ∧ (req 1 [7]).srcLen ≠ 0#32 ∧ (req 0x00010001 []).cmd ≠ 0x00000001#32 ∧
    (busy 1 []).lutReady = true := by decide

theorem witness_LutinitFollowsItsRule_inv : (busy 1 []).Inv := busy_inv 1 []

/-- Even, empty and odd lengths on a ready block, a block that is not ready, a pixel, and an illegal neighbour. -/
theorem witness_ExpandFollowsItsRule :
    let r := req 2 [0x34, 0x12, 0xF8, 0x00]
    (busy 2 r.src).inFlight = some r ∧ r.wellFormed = true ∧ (busy 2 r.src).lutReady = true ∧ r.srcLen.toNat % 2 = 0 ∧
    r.src[2 * 1]? = some 0xF8 ∧ r.src[2 * 1 + 1]? = some 0x00 ∧ 0xF8 = (0x00#8).toNat * 256 + (0xF8#8).toNat ∧
    (req 2 []).wellFormed = true ∧ (req 2 []).srcLen.toNat % 2 = 0 ∧
    (req 2 [1]).wellFormed = true ∧ (req 2 [1]).srcLen.toNat % 2 = 1 ∧ (State.reset.accept r).lutReady = false ∧
    (0x80000002#32).toNat % 256 = 2 ∧ 0x80000002#32 ≠ 0x00000002#32 := by decide

theorem witness_ExpandFollowsItsRule_inv : (busy 2 [0x34, 0x12]).Inv ∧ (State.reset.accept (req 2 [])).Inv :=
  ⟨busy_inv 2 _, ⟨by simp [State.reset], by simp [State.reset]⟩⟩

/-- A multiple of three, both other remainders, a block that is not ready, a pixel, and an illegal neighbour. -/
theorem witness_CompactFollowsItsRule :
    let r := req 3 [12, 34, 56, 0, 255, 0]
    (busy 3 r.src).inFlight = some r ∧ r.wellFormed = true ∧ (busy 3 r.src).lutReady = true ∧ r.srcLen.toNat % 3 = 0 ∧
    r.src[3 * 1]? = some 0 ∧ r.src[3 * 1 + 1]? = some 255 ∧ r.src[3 * 1 + 2]? = some 0 ∧
    (req 3 [1]).srcLen.toNat % 3 ≠ 0 ∧ (req 3 [1, 2]).srcLen.toNat % 3 ≠ 0 ∧ (req 3 [1, 2]).wellFormed = true ∧
    (State.reset.accept r).lutReady = false ∧
    (0x00000103#32).toNat % 256 = 3 ∧ 0x00000103#32 ≠ 0x00000003#32 := by decide

theorem witness_CompactFollowsItsRule_inv : (busy 3 [12, 34, 56]).Inv ∧ (State.reset.accept (req 3 [])).Inv :=
  ⟨busy_inv 3 _, ⟨by simp [State.reset], by simp [State.reset]⟩⟩

/-- All in range, one index equal to the count, an empty buffer, a count of 0, a count of 256; not ready; `RSV ≠ 0`. -/
theorem witness_PalchkFollowsItsRule :
    let r := req 0x00040004 [0, 3]
    (busy r.cmd r.src).inFlight = some r ∧ r.wellFormed = true ∧ (busy r.cmd r.src).lutReady = true ∧
    (∀ index ∈ r.src, index.toNat < (4#16).toNat) ∧ ¬ (∀ index ∈ (req 0x00040004 [4]).src, index.toNat < (4#16).toNat) ∧
    (req 0x00040004 []).src = [] ∧ (req 0x00000004 [7]).src ≠ [] ∧ 256 ≤ (256#16).toNat ∧
    (State.reset.accept r).lutReady = false ∧
    (0x00040104#32).toNat % 256 = 4 ∧ (0x00040104#32).toNat / 256 % 256 ≠ 0 := by decide

theorem witness_PalchkIgnoresOrderAndNumber :
    let r := req 0x00040004 [0, 3, 9]
    let q := req 0x00040004 [9, 3, 3, 0]
    r.wellFormed = true ∧ q.wellFormed = true ∧ r.src ⊆ q.src ∧ q.src ⊆ r.src := by decide

theorem witness_ExpandOfConcatenation : ([0x34, 0x12] : List Byte).length % 2 = 0 := by decide

theorem witness_ExpandIsInjective :
    let r := req 2 [0x34, 0x12]
    ready.Inv ∧ ready.lutReady = true ∧ r.wellFormed = true ∧ r.srcLen.toNat % 2 = 0 ∧
    ∃ t, exec .expand (ready.accept r) = .next t := ⟨ready_inv, rfl, by decide, by decide, _, rfl⟩

theorem witness_CompactUndoesExpand :
    let r := req 2 [0x00, 0xF8]
    let q := req 3 [255, 0, 0]
    (planned [.issue r]).Inv ∧ (planned [.issue r]).lutReady = true ∧ (planned [.issue r]).inFlight = none ∧
    r.cmd = 0x00000002#32 ∧ r.wellFormed = true ∧ r.srcLen.toNat % 2 = 0 ∧ (planned [.issue r]).host = .issue r :: [] ∧
    q.cmd = 0x00000003#32 ∧ q.src = expandBytes lut888Contents r.src ∧ q.wellFormed = true :=
  ⟨planned_inv _, rfl, rfl, rfl, by decide, by decide, rfl, rfl, by decide, by decide⟩

/-- A reply of an error to a request in flight; and bytes told apart by the order of the four of `STATUS`. -/
theorem witness_ResponseBytesOrder : (busy 2 [0]).inFlight = some (req 2 [0]) ∧
    responsesOf (step (busy 2 [0])) = some ((busy 2 [0]).responses ++ [⟨0x00000201, []⟩]) ∧
    (0x00000201#32).toNat % 16 ≠ 0 ∧ (Response.mk 0x00000200 [255, 0]).bytes = [0x00, 0x02, 0x00, 0x00, 255, 0] := by decide

theorem witness_CompactIsMonotoneAndLossy : 0#8 ≤ 255#8 ∧ 4#8 ≤ 5#8 ∧ 7#8 ≤ 7#8 := by decide

theorem witness_FirstFailingCheckGivesTheCode : (busy 5 []).Inv ∧ (busy 5 []).inFlight = some (req 5 []) ∧
    (req 5 []).wellFormed = true := ⟨busy_inv 5 [], rfl, by decide⟩

/-- An error on a ready block, and its response. -/
theorem witness_ErrorsChangeNothing :
    let s := planned [.issue (req 2 [0x00])]
    let resp : Response := ⟨0x00000201, []⟩
    s.inFlight = none ∧ s.host = .issue (req 2 [0x00]) :: [] ∧ responsesOf (step s) = some (s.responses ++ [resp]) ∧
    resp.status.toNat % 16 ≠ 0 := by decide

theorem witness_StatusWordFields : (busy 0x00040004 [3]).inFlight = some (req 0x00040004 [3]) ∧
    responsesOf (step (busy 0x00040004 [3])) = some ((busy 0x00040004 [3]).responses ++ [⟨0x00000300, []⟩]) := by decide

/-- A step from a good state with legal responses: the hypotheses of the step invariants and of the whole-machine rules
about a next state (`StepKeepsTheInvariant`, `ResponsesStayLegal`, `NothingInFlightAfterAStep`,
`OnlyLutinitAndResetWriteTheTables`, `HostActsInOrder`). -/
theorem witness_StepStatements : (busy 1 []).Inv ∧ (busy 1 []).ResponsesLegal ∧ ∃ t, step (busy 1 []) = .next t :=
  ⟨busy_inv 1 [], by simp [State.ResponsesLegal, busy, ready, State.reset], _, rfl⟩

/-- `HostActsInOrder` on an idle block, and `OnlyLutinitAndResetWriteTheTables` on a reset and on an abort. -/
theorem witness_StepStatements_idle : ((planned [.assertReset]).inFlight = none ∧ ∃ t, step (planned [.assertReset]) = .next t) ∧
    ∃ t, step (planned [.abort (req 1 [])]) = .next t := ⟨⟨rfl, _, rfl⟩, _, rfl⟩

/-- Two states that differ in the host's plan only. -/
theorem witness_NothingElsePersists :
    let r := req 2 [0x34, 0x12]
    let s := ready.accept r
    let u := (planned [.assertReset]).accept r
    s.lutReady = u.lutReady ∧ s.lut5 = u.lut5 ∧ s.lut6 = u.lut6 ∧ s.lut888 = u.lut888 ∧ s.inFlight = some r ∧
    u.inFlight = some r ∧ ∃ t, step s = .next t := ⟨rfl, rfl, rfl, rfl, rfl, rfl, _, rfl⟩

theorem witness_LutinitComesFirst :
    [req 2 [0], req 3 [], req 0x00040004 []].all (fun r => r.wellFormed && (State.reset.accept r).inFlight == some r &&
      (decode r.cmd matches .ok _) && decode r.cmd != .ok .lutinit) = true ∧
    State.reset.lutReady = false ∧ (req 1 []).wellFormed = true ∧ (req 1 []).cmd = 0x00000001#32 ∧
    (req 1 []).srcLen = 0#32 := by decide

theorem witness_IllFormedRequestsHaveNoStep :
    let r : Request := ⟨2, 3, [0, 0]⟩
    r.src.length ≠ r.srcLen.toNat ∧ (ready.accept r).inFlight = some r ∧ (planned [.issue r]).inFlight = none ∧
    (planned [.issue r]).host.head? = some (.issue r) := by decide

theorem witness_StepRunsTheDecodedCommand :
    let r := req 0x00040004 [3]
    (busy r.cmd r.src).inFlight = some r ∧ decode r.cmd = .ok (.palchk 4) ∧ (planned [.issue r]).inFlight = none ∧
    (planned [.issue r]).host = .issue r :: [] := by decide

theorem witness_PlacedTableWordRunsNext : decodeTableWord 32 0xFFFF0004 = some (.palchk 65535) ∧
    decodeTableWord 64 0x0000000300000003 = some .compact := by decide

theorem witness_ConversionsArePure :
    let r := req 2 [0x34, 0x12]
    ready.Inv ∧ (planned [.assertReset]).Inv ∧ ready.lutReady = true ∧ (planned [.assertReset]).lutReady = true ∧
    r.wellFormed = true ∧ Instr.expand ≠ .lutinit := ⟨ready_inv, planned_inv _, rfl, rfl, by decide, by decide⟩

theorem witness_ConversionsCommute :
    let r := req 2 [0x34, 0x12]
    let q := req 0x00040004 [9]
    ready.Inv ∧ ready.lutReady = true ∧ ready.inFlight = none ∧ r.wellFormed = true ∧ q.wellFormed = true ∧
    decode r.cmd ≠ .ok .lutinit ∧ decode q.cmd ≠ .ok .lutinit :=
  ⟨ready_inv, rfl, rfl, by decide, by decide, by decide, by decide⟩

/-- A host with a plan of all three actions: the hypotheses of `GoodBlockNeverStops` and `EveryRequestIsAnsweredOnce`; the
plan has an action of each kind, at the places 0, 1 and 2. -/
theorem witness_GoodBlockNeverStops :
    let s := planned [.issue (req 2 [0x34, 0x12]), .abort (req 1 []), .assertReset]
    s.Inv ∧ s.HostContract ∧ s.inFlight = none := by
  refine ⟨planned_inv _, ⟨?_, ?_⟩, rfl⟩
  · intro r flight
    exact absurd (show none = some r from flight) (by simp)
  · intro r member
    have : r = req 2 [0x34, 0x12] := by simpa [planned] using member
    subst this
    decide

theorem witness_AssembledRequestsAreWellFormed :
    [AsmLine.lutinit, .expand [0, 248], .compact [255, 0, 0], .palchk 65535 [255], .cmd 0xFFFFFFFF []].all
      (fun line => line.wellFormed && (assemble line).isSome) = true ∧
    [AsmLine.expand [256], .compact [0, 256], .palchk 65536 [], .palchk 0 [256], .cmd 0x100000000 [], .cmd 0 [256]].all
      (fun line => (assemble line).isNone) = true := by decide

end Sys2Proof.Tests
end

/-! PROOFS. Reset and the status word: a good block answers every well-formed request, reset leaves a good block, and what
the response of a transaction says (R28, R30, R180). -/

namespace Sys2Proof.Machine

variable {s t : State} {r : Request} {k : Host.Outcome State Fault Refusal}

/-! ## A good block answers -/

theorem requireReady_answers (whenReady : s.lutReady = true → ∃ t, k = .next t) : ∃ t, requireReady s k = .next t := by
  cases ready : s.lutReady with
  | true =>
    obtain ⟨t, done⟩ := whenReady ready
    exact ⟨t, requireReady_eq_next.mpr (.inl ⟨ready, done⟩)⟩
  | false => exact ⟨_, requireReady_eq_next.mpr (.inr ⟨ready, rfl⟩)⟩

theorem requireLength_answers {fits : Bool} (whenFits : ∃ t, k = .next t) : ∃ t, requireLength fits s k = .next t := by
  cases fits with
  | true => exact whenFits
  | false => exact ⟨_, rfl⟩

/-- Every command answers on a well-formed request: a check that fails answers with its error, and a block that meets the
invariant holds the tables that are read after the check of `LUT_READY` (R25, R165). -/
theorem exec_answers (i : Instr) (inv : s.Inv) (flight : s.inFlight = some r) (wf : r.wellFormed = true) :
    ∃ t, exec i s = .next t := by
  cases i with
  | lutinit =>
    rw [exec, execLutinit, withRequest_run flight wf]
    exact requireLength_answers ⟨_, rfl⟩
  | expand =>
    rw [exec, execExpand, withRequest_run flight wf]
    refine requireReady_answers fun ready => requireLength_answers ?_
    obtain ⟨_, _, table888⟩ := inv.whenReady ready
    exact ⟨_, withTable_eq_next.mpr ⟨_, table888, rfl⟩⟩
  | compact =>
    rw [exec, execCompact, withRequest_run flight wf]
    refine requireReady_answers fun ready => requireLength_answers ?_
    obtain ⟨table5, table6, _⟩ := inv.whenReady ready
    exact ⟨_, withTable_eq_next.mpr ⟨_, table5, withTable_eq_next.mpr ⟨_, table6, rfl⟩⟩⟩
  | palchk count =>
    rw [exec, execPalchk, withRequest_run flight wf]
    exact requireReady_answers fun _ => ⟨_, rfl⟩

theorem transact_answers (inv : s.Inv) (flight : s.inFlight = some r) (wf : r.wellFormed = true) :
    ∃ t, transact r s = .next t := by
  unfold transact
  split
  · exact ⟨_, raiseIllegalCmd_eq_next.mpr ⟨r, flight, wf, rfl⟩⟩
  · exact exec_answers _ inv flight wf

theorem step_of_inFlight (flight : s.inFlight = some r) : step s = transact r s := by
  simp only [step, flight]

/-- Taking a request touches no part of the invariant. -/
theorem State.Inv.accept (inv : s.Inv) (r : Request) : (s.accept r).Inv := ⟨inv.whenReady, inv.whenNotReady⟩

/-- A good block that takes a well-formed request answers it in one step, with exactly one response. -/
theorem step_accept_answers (inv : s.Inv) (wf : r.wellFormed = true) :
    ∃ u resp, step (s.accept r) = .next u ∧ u.responses = s.responses ++ [resp] := by
  have flight := State.accept_inFlight s r
  obtain ⟨u, done⟩ := transact_answers (inv.accept r) flight wf
  obtain ⟨_, ended⟩ := transact_cases flight done
  obtain ⟨resp, added⟩ := ended.responses
  exact ⟨u, resp, (step_of_inFlight flight).trans done, added⟩

/-! ## Reset -/

/-- Reset leaves a block that meets the invariant, whatever the block held. -/
theorem State.resetBlock_inv (s : State) : s.resetBlock.Inv :=
  ⟨fun ready => absurd ready (by simp), fun _ => ⟨rfl, rfl, rfl⟩⟩

/-- Settles O1: reset leaves a good block, and a good block answers. Power-on is a reset of the power-on state itself. -/
theorem resetClearsTheBlock : Obligations.ResetClearsTheBlock := by
  refine ⟨⟨rfl, rfl, rfl, rfl, rfl, fun r wf => step_accept_answers State.reset.resetBlock_inv wf⟩, ?_⟩
  intro s rest idle plan
  have reset : step s = .next { s with host := rest }.resetBlock := by simp only [step, idle, plan, hostAct]
  exact ⟨_, reset, rfl, rfl, rfl, rfl, rfl, fun r wf => step_accept_answers (State.resetBlock_inv _) wf⟩

/-! ## The status word -/

/-- The verdict of `PALCHK` as numbers (R140, R141). -/
theorem allInRange_iff {count : BitVec 16} {src : List Byte} :
    allInRange count src = true ↔ ∀ index ∈ src, index.toNat < count.toNat := by
  have widen (index : Byte) : index.toNat % 65536 = index.toNat := by have := index.isLt; omega
  simp [allInRange, inRange, BitVec.ult, widen]

theorem ErrCode.bits_toNat_eq_zero {err : ErrCode} : err.bits.toNat = 0 ↔ err = .ok := by
  cases err <;> decide

theorem statusWord_errField (ready result : Bool) (err : ErrCode) :
    (statusWord ready result err).extractLsb' 0 4 = err.bits := by
  apply BitVec.eq_of_toNat_eq
  have code := statusWord_err ready result err
  rw [toNat_field]
  omega

theorem statusWord_reservedLow (ready result : Bool) (err : ErrCode) :
    (statusWord ready result err).extractLsb' 4 4 = 0#4 := by
  apply BitVec.eq_of_toNat_eq
  have code := err.bits.isLt
  rw [toNat_field, statusWord_toNat, BitVec.toNat_ofNat]
  omega

theorem statusWord_reservedHigh (ready result : Bool) (err : ErrCode) :
    (statusWord ready result err).extractLsb' 10 22 = 0#22 := by
  apply BitVec.eq_of_toNat_eq
  have code := err.bits.isLt
  have readyBit := ready.toNat_le
  have resultBit := result.toNat_le
  rw [toNat_field, statusWord_toNat, BitVec.toNat_ofNat]
  omega

/-! ## The response of a transaction -/

/-- The response a command adds: `READY` is `LUT_READY` afterwards, and `RESULT` is 1 exactly for a `PALCHK` without an
error whose indices are all in range (R28, R141). -/
theorem exec_response {i : Instr} (flight : s.inFlight = some r) (h : exec i s = .next t) :
    ∃ err result dst, t.responses = s.responses ++ [⟨statusWord t.lutReady result err, dst⟩] ∧
      (result = true ↔ err = .ok ∧ ∃ count, i = .palchk count ∧ allInRange count r.src = true) := by
  cases i with
  | lutinit =>
    obtain ⟨_, _, _, ⟨_, rfl⟩ | ⟨_, rfl⟩⟩ := execLutinit_cases h <;>
      exact ⟨_, _, _, rfl, by simp⟩
  | expand =>
    obtain ⟨_, _, _, ⟨_, rfl⟩ | ⟨_, _, rfl⟩ | ⟨_, _, _, _, rfl⟩⟩ := execExpand_cases h <;>
      exact ⟨_, _, _, rfl, by simp⟩
  | compact =>
    obtain ⟨_, _, _, ⟨_, rfl⟩ | ⟨_, _, rfl⟩ | ⟨_, _, _, _, _, _, rfl⟩⟩ := execCompact_cases h <;>
      exact ⟨_, _, _, rfl, by simp⟩
  | palchk count =>
    obtain ⟨q, flight', _, ⟨_, rfl⟩ | ⟨_, rfl⟩⟩ := execPalchk_cases h
    · exact ⟨_, _, _, rfl, by simp⟩
    · obtain rfl : r = q := Option.some.inj (flight.symm.trans flight')
      exact ⟨_, _, _, rfl, by simp⟩

/-- The response a transaction adds: an illegal `CMD` is no `PALCHK`, and a command responds as `exec_response` says. -/
theorem transact_response (flight : s.inFlight = some r) (h : transact r s = .next t) :
    ∃ err result dst, t.responses = s.responses ++ [⟨statusWord t.lutReady result err, dst⟩] ∧
      (result = true ↔ err = .ok ∧ ∃ count, decode r.cmd = .ok (.palchk count) ∧ allInRange count r.src = true) := by
  unfold transact at h
  split at h
  · obtain ⟨_, _, _, rfl⟩ := raiseIllegalCmd_eq_next.mp h
    exact ⟨_, _, _, rfl, by simp⟩
  · next i decoded => simpa [decoded] using exec_response flight h

/-- Settles O32: the fields from the number the status word stands for, their meaning from `transact_response`. -/
theorem statusWordFields : Obligations.StatusWordFields := by
  refine ⟨fun ready result err => ⟨by simp, by simp, statusWord_errField .., statusWord_reservedLow ..,
    statusWord_reservedHigh ..⟩, ?_⟩
  intro s t r resp flight stepped added
  rw [step_of_inFlight flight] at stepped
  obtain ⟨err, result, dst, responses, meaning⟩ := transact_response flight stepped
  obtain rfl : resp = ⟨statusWord t.lutReady result err, dst⟩ := by simpa [added] using responses
  refine ⟨⟨result, err, rfl⟩, ?_⟩
  simpa [statusWord_err, ErrCode.bits_toNat_eq_zero, allInRange_iff] using meaning

end Sys2Proof.Machine

/-! PROOFS. The byte orders of pixels: which bytes of a source make pixel `i`, and which bytes of a destination pixel `i`
becomes (R41–R43). -/

namespace Sys2Proof.Machine

/-! ## Pixels of a source buffer -/

/-- `MemRead(i, 2)` is the little-endian number of two bytes; none when either is past the end (R11). -/
theorem memRead_two (src : List Byte) (i : Nat) :
    memRead src i 2 = src[i]?.bind fun lo => (src[i + 1]?).map fun hi => hi.toNat * 256 + lo.toNat := by
  cases lo : src[i]? <;> cases hi : src[i + 1]? <;> simp [memRead, lo, hi]
  omega

/-- Pixel `i` of an RGB565 source is the word of two bytes; none when either is past the end (R41). -/
theorem pixels565_getElem? : ∀ (src : List Byte) (i : Nat),
    (pixels565 src)[i]? = src[2 * i]?.bind fun lo => (src[2 * i + 1]?).map (word565 lo)
  | [], _ => by simp
  | [_], _ => by simp
  | _ :: _ :: _, 0 => by simp
  | _ :: _ :: rest, i + 1 => by simpa [Nat.mul_succ] using pixels565_getElem? rest i

theorem pixels888_getElem?_eq_some {red green blue : Byte} : ∀ {src : List Byte} {i : Nat},
    (pixels888 src)[i]? = some (red, green, blue) ↔
      src[3 * i]? = some red ∧ src[3 * i + 1]? = some green ∧ src[3 * i + 2]? = some blue
  | [], _ => by simp
  | [_], _ => by simp
  | [_, _], _ => by simp
  | _ :: _ :: _ :: _, 0 => by simp
  | _ :: _ :: _ :: rest, i + 1 => by
    simpa [Nat.mul_succ] using pixels888_getElem?_eq_some (src := rest) (i := i)

/-- The word of two bytes in the rule's shift and OR (R41). -/
theorem word565_eq_shift_or (lo hi : Byte) : word565 lo hi = (hi.setWidth 16 <<< 8) ||| lo.setWidth 16 := by
  have whole : (word565 lo hi).toNat = hi.toNat <<< 8 ||| lo.toNat := BitVec.toNat_append hi lo
  apply BitVec.eq_of_toNat_eq
  have high := hi.isLt
  have low := lo.isLt
  simp only [whole, BitVec.toNat_or, BitVec.toNat_shiftLeft, BitVec.toNat_setWidth, Nat.shiftLeft_eq]
  congr 1 <;> omega

/-! ## Pixels of a destination buffer -/

/-- When every pixel becomes `width` bytes, byte `k` of pixel `i` stands at `width·i + k`. -/
theorem getElem?_flatMap_of_width {α : Type} {bytes : α → List Byte} {width k : Nat} {byte : α → Byte}
    (uniform : ∀ x, (bytes x).length = width) (at_k : ∀ x, (bytes x)[k]? = some (byte x)) :
    ∀ (xs : List α) (i : Nat), (xs.flatMap bytes)[width * i + k]? = xs[i]?.map byte
  | [], _ => by simp
  | x :: _, 0 => by
    have inside : k < (bytes x).length := (List.getElem?_eq_some_iff.mp (at_k x)).1
    rw [List.flatMap_cons, Nat.mul_zero, Nat.zero_add, List.getElem?_append_left inside, at_k]
    rfl
  | x :: xs, i + 1 => by
    have skip : width * (i + 1) + k = (bytes x).length + (width * i + k) := by rw [uniform, Nat.mul_succ]; omega
    rw [List.flatMap_cons, skip, List.getElem?_append_right (Nat.le_add_right _ _), Nat.add_sub_cancel_left,
      getElem?_flatMap_of_width uniform at_k xs i, List.getElem?_cons_succ]

/-- Settles O20: the sources by recursion on the buffer, the destinations from the one width of every pixel. -/
theorem pixelByteOrders : Obligations.PixelByteOrders := by
  refine ⟨fun src i => ?_, fun src i lo hi low high => ?_, fun words i => ⟨?_, ?_⟩,
    fun src i red green blue => pixels888_getElem?_eq_some, fun pixels i => ⟨?_, ?_, ?_⟩⟩
  · simp [pixels565_getElem?, memRead_two, Option.map_bind, Function.comp_def, word565_toNat]
  · simp [pixels565_getElem?, low, high, word565_eq_shift_or]
  · exact getElem?_flatMap_of_width (k := 0) bytes565_length (fun _ => rfl) words i
  · exact getElem?_flatMap_of_width (k := 1) bytes565_length (fun _ => rfl) words i
  · exact getElem?_flatMap_of_width (k := 0) bytes888_length (fun _ => rfl) pixels i
  · exact getElem?_flatMap_of_width (k := 1) bytes888_length (fun _ => rfl) pixels i
  · exact getElem?_flatMap_of_width (k := 2) bytes888_length (fun _ => rfl) pixels i

end Sys2Proof.Machine

/-! PROOFS. The requests that carry no command: which command words are illegal and how the block answers them (R65, R164),
and the refusal of a request whose payload is not `SRC_LEN` bytes (R67). -/

namespace Sys2Proof

/-! ## Illegal command words -/

theorem withoutImmediate_error_iff {imm : BitVec 16} {i : Instr} :
    (∃ e, withoutImmediate imm i = .error e) ↔ imm.toNat ≠ 0 := by
  unfold withoutImmediate
  split_ifs with zero
  · simp [zero]
  · simpa [BitVec.toNat_eq] using zero

/-- With `RSV = 0`, a reserved opcode or a reserved immediate is what makes a command word illegal (R65 items 1 and 3). -/
theorem decodeOpcode_error_iff {opc : BitVec 8} {imm : BitVec 16} :
    (∃ e, decodeOpcode opc imm = .error e) ↔
      (opc.toNat = 0 ∨ 5 ≤ opc.toNat) ∨ (opc.toNat ∈ [1, 2, 3] ∧ imm.toNat ≠ 0) := by
  unfold decodeOpcode
  split_ifs with lutinit expand compact palchk
  · simp [lutinit, withoutImmediate_error_iff]
  · simp [expand, withoutImmediate_error_iff]
  · simp [compact, withoutImmediate_error_iff]
  · simp [palchk]
  · have reserved : opc.toNat = 0 ∨ 5 ≤ opc.toNat := by
      simp only [BitVec.toNat_eq, BitVec.toNat_ofNat] at lutinit expand compact palchk
      omega
    simp [reserved]

/-- The three items of R65 on the whole word: `RSV` is checked first, and then the opcode map. -/
theorem decode_error_iff (cmd : Word) : (∃ e, decode cmd = .error e) ↔
    (cmd.toNat % 256 = 0 ∨ 5 ≤ cmd.toNat % 256) ∨ cmd.toNat / 256 % 256 ≠ 0 ∨
    (cmd.toNat % 256 ∈ [1, 2, 3] ∧ cmd.toNat / 65536 ≠ 0) := by
  unfold decode
  split_ifs with reserved
  · have : cmd.toNat / 256 % 256 ≠ 0 := by simpa [BitVec.toNat_eq, rsvField_toNat] using reserved
    simp [this]
  · have : cmd.toNat / 256 % 256 = 0 := by simpa [BitVec.toNat_eq, rsvField_toNat] using reserved
    simp [decodeOpcode_error_iff, opcField_toNat, immField_toNat, this]

end Sys2Proof

namespace Sys2Proof.Machine

variable {s : State} {r : Request}

/-- `E_ILLEGAL_CMD` ends the transaction of a well-formed request and changes nothing else (R164, R166). -/
theorem transact_illegalCmd {e : Illegal} (flight : s.inFlight = some r) (wf : r.wellFormed = true)
    (illegal : decode r.cmd = .error e) : transact r s = .next (s.respond .illegalCmd false []) := by
  simp only [transact, illegal]
  exact raiseIllegalCmd_eq_next.mpr ⟨r, flight, wf, rfl⟩

theorem statusWord_illegalCmd (ready : Bool) :
    statusWord ready false .illegalCmd = if ready then 0x00000203#32 else 0x00000003#32 := by
  cases ready <;> decide

/-- Settles O7: the decoder by the order of its checks, the answer as check 1's response with its status as a number. -/
theorem illegalCommandsAreRefused : Obligations.IllegalCommandsAreRefused := by
  refine ⟨decode_error_iff, fun s r e flight wf illegal => ?_⟩
  rw [step_of_inFlight flight, transact_illegalCmd flight wf illegal, State.respond, statusWord_illegalCmd]

/-! ## Ill-formed requests -/

/-- Every command looks first at the payload's length (R67). -/
theorem exec_illFormed (i : Instr) (flight : s.inFlight = some r) (wf : r.wellFormed = false) :
    exec i s = .refused .illFormedRequest := by
  cases i with
  | lutinit => exact withRequest_illFormed flight wf
  | expand => exact withRequest_illFormed flight wf
  | compact => exact withRequest_illFormed flight wf
  | palchk count => exact withRequest_illFormed flight wf

/-- An illegal `CMD` does not give an ill-formed request a meaning either (R67). -/
theorem transact_illFormed (flight : s.inFlight = some r) (wf : r.wellFormed = false) :
    transact r s = .refused .illFormedRequest := by
  unfold transact
  split
  · exact withRequest_illFormed flight wf
  · exact exec_illFormed _ flight wf

/-- An idle block takes the request its host issues next and performs it (R49). -/
theorem step_of_issue {rest : List HostAction} (idle : s.inFlight = none) (plan : s.host = .issue r :: rest) :
    step s = transact r ({ s with host := rest }.accept r) := by
  simp only [step, idle, plan, hostAct]

/-- Settles O42: the same refusal for the request in flight and for the one taken from the host's plan. -/
theorem illFormedRequestsHaveNoStep : Obligations.IllFormedRequestsHaveNoStep := by
  intro s r wrongLength found
  have wf : r.wellFormed = false := Bool.eq_false_iff.mpr (wrongLength ∘ Request.wellFormed_iff.mp)
  rcases found with flight | ⟨idle, next⟩
  · exact (step_of_inFlight flight).trans (transact_illFormed flight wf)
  · obtain ⟨rest, plan⟩ := List.head?_eq_some_iff.mp next
    exact (step_of_issue idle plan).trans (transact_illFormed (State.accept_inFlight _ r) wf)

end Sys2Proof.Machine

/-! PROOFS. The contents of the tables: the formulas of R80–R84 as roundings and in shifts and masks, their properties
(R87), and their listings (R89–R91). -/

namespace Sys2Proof.Machine

/-! ## Half-up rounding -/

/-- The one floor division of naturals is the rounding of the exact quotient (R10). -/
theorem roundHalfUp_eq_floor (num : Nat) {den : Nat} (pos : 0 < den) :
    (roundHalfUp num den : ℤ) = ⌊(num : ℚ) / den + 1 / 2⌋ := by
  have oneFraction : (num : ℚ) / den + 1 / 2 = ((2 * num + den : ℕ) : ℚ) / ((2 * den : ℕ) : ℚ) := by
    have : (den : ℚ) ≠ 0 := by exact_mod_cast pos.ne'
    push_cast
    field_simp
  rw [oneFraction, Rat.floor_natCast_div_natCast, roundHalfUp, Int.natCast_div]

theorem q5_toNat_eq_roundHalfUp (v : Byte) : (q5 v).toNat = roundHalfUp (v.toNat * 31) 255 := by
  rw [q5_toNat, roundHalfUp]
  omega

theorem q6_toNat_eq_roundHalfUp (v : Byte) : (q6 v).toNat = roundHalfUp (v.toNat * 63) 255 := by
  rw [q6_toNat, roundHalfUp]
  omega

theorem x5_toNat_eq_roundHalfUp (b : BitVec 5) : (x5 b).toNat = roundHalfUp (b.toNat * 255) 31 := by
  rw [x5_toNat, roundHalfUp]
  omega

theorem x6_toNat_eq_roundHalfUp (g : BitVec 6) : (x6 g).toNat = roundHalfUp (g.toNat * 255) 63 := by
  rw [x6_toNat, roundHalfUp]
  omega

/-- Settles O10: no quantised value is cut to its width, so the floors are those of `roundHalfUp`. -/
theorem quantisersRoundHalfUp : Obligations.QuantisersRoundHalfUp := by
  refine fun v => ⟨⟨?_, q5_toNat v⟩, ?_, q6_toNat v⟩
  · rw [q5_toNat_eq_roundHalfUp, roundHalfUp_eq_floor _ (by decide)]
    norm_num
  · rw [q6_toNat_eq_roundHalfUp, roundHalfUp_eq_floor _ (by decide)]
    norm_num

/-- Settles O11: no expanded field is cut to a byte, so the floors are those of `roundHalfUp`. -/
theorem expansionsRoundHalfUp : Obligations.ExpansionsRoundHalfUp := by
  refine ⟨fun b => ⟨?_, x5_toNat b⟩, fun g => ⟨?_, x6_toNat g⟩⟩
  · rw [x5_toNat_eq_roundHalfUp, roundHalfUp_eq_floor _ (by decide)]
    norm_num
  · rw [x6_toNat_eq_roundHalfUp, roundHalfUp_eq_floor _ (by decide)]
    norm_num

/-! ## The expansion table in shifts and masks -/

/-- A shift and then a mask that keeps the low `width` bits cut out a field (R84). -/
theorem setWidth_shift_mask {width : Nat} (w : Rgb565) (start : Nat) {mask : Rgb565}
    (keepsLow : mask.setWidth width = BitVec.allOnes width) :
    ((w >>> start) &&& mask).setWidth width = w.extractLsb' start width := by
  rw [BitVec.setWidth_and, keepsLow, BitVec.and_allOnes]
  ext i lt
  simp

theorem red5_eq_shift_mask (w : Rgb565) : ((w >>> 11) &&& 0x1F#16).setWidth 5 = red5 w :=
  setWidth_shift_mask w 11 (by decide)

theorem green6_eq_shift_mask (w : Rgb565) : ((w >>> 5) &&& 0x3F#16).setWidth 6 = green6 w :=
  setWidth_shift_mask w 5 (by decide)

theorem blue5_eq_mask (w : Rgb565) : (w &&& 0x1F#16).setWidth 5 = blue5 w :=
  setWidth_shift_mask w 0 (by decide)

/-- Three channels side by side, as the rule's shifts and ORs (R84). -/
theorem channels_eq_shift_or (red green blue : Byte) : (red ++ green ++ blue : Rgb888) =
    (red.setWidth 24 <<< 16) ||| (green.setWidth 24 <<< 8) ||| blue.setWidth 24 := by
  have whole : (red ++ green ++ blue : Rgb888).toNat = red.toNat <<< 16 ||| green.toNat <<< 8 ||| blue.toNat := by
    rw [BitVec.toNat_append, BitVec.toNat_append, Nat.shiftLeft_or_distrib, ← Nat.shiftLeft_add]
  apply BitVec.eq_of_toNat_eq
  have redByte := red.isLt
  have greenByte := green.isLt
  have blueByte := blue.isLt
  simp only [whole, BitVec.toNat_or, BitVec.toNat_shiftLeft,
    BitVec.toNat_setWidth, Nat.shiftLeft_eq]
  congr 2 <;> omega

/-- Settles O12: the entry that was written, with its fields and its channels in the rule's shifts and masks. -/
theorem expansionTableEntries : Obligations.ExpansionTableEntries := by
  intro v
  rw [red5_eq_shift_mask, green6_eq_shift_mask, blue5_eq_mask, ← channels_eq_shift_or]
  exact lut888Contents_read v

/-! ## Properties of the formulas -/

theorem q5_mono {v v' : Byte} (le : v ≤ v') : q5 v ≤ q5 v' := by
  simp only [BitVec.le_def, q5_toNat] at le ⊢
  omega

theorem q6_mono {v v' : Byte} (le : v ≤ v') : q6 v ≤ q6 v' := by
  simp only [BitVec.le_def, q6_toNat] at le ⊢
  omega

theorem x5_strictMono {b b' : BitVec 5} (lt : b < b') : x5 b < x5 b' := by
  simp only [BitVec.lt_def, x5_toNat] at lt ⊢
  omega

theorem x6_strictMono {g g' : BitVec 6} (lt : g < g') : x6 g < x6 g' := by
  simp only [BitVec.lt_def, x6_toNat] at lt ⊢
  omega

/-- Quantising an expanded field gives the field back (R87 item 4). -/
@[simp] theorem q5_x5 (b : BitVec 5) : q5 (x5 b) = b := by
  apply BitVec.eq_of_toNat_eq
  rw [q5_toNat, x5_toNat]
  omega

@[simp] theorem q6_x6 (g : BitVec 6) : q6 (x6 g) = g := by
  apply BitVec.eq_of_toNat_eq
  rw [q6_toNat, x6_toNat]
  omega

/-- A pixel is made again of its two bytes (R41, R42). -/
@[simp] theorem word565_bytes (w : Rgb565) : word565 (w.extractLsb' 0 8) (w.extractLsb' 8 8) = w := by
  apply BitVec.eq_of_toNat_eq
  have := w.isLt
  simp only [word565_toNat, toNat_field]
  omega

/-- Compacting an expanded pixel gives its bytes back, since each channel does (R87 item 4). -/
theorem compactBytes_expandBytes_pixel (w : Rgb565) :
    compactBytes lut5Contents lut6Contents (expandBytes lut888Contents (bytes565 w)) = bytes565 w := by
  have expanded : expandBytes lut888Contents (bytes565 w) = [x5 (red5 w), x6 (green6 w), x5 (blue5 w)] := by
    simp [bytes565, bytes888_x888]
  simp [expanded]

/-- Settles O14: the ranges by the widths of the words, the rest by the lemmas above; the end points are evaluated. -/
theorem tableProperties : Obligations.TableProperties := by
  refine ⟨fun v => ⟨Nat.le_of_lt_succ (q5 v).isLt, Nat.le_of_lt_succ (q6 v).isLt⟩,
    fun b g => ⟨Nat.le_of_lt_succ (x5 b).isLt, Nat.le_of_lt_succ (x6 g).isLt⟩, fun w => (x888 w).isLt, by decide,
    fun v v' le => ⟨q5_mono le, q6_mono le⟩, fun b b' => x5_strictMono, fun g g' => x6_strictMono, q5_x5, q6_x6,
    compactBytes_expandBytes_pixel, by decide, fun w => ?_, by decide⟩
  rw [lut888Contents_read, bytes888_x888]

/-! ## The listings -/

/-- The first and the last byte that the quantiser to `0 … m` sends to `k`, from the bounds of its floor division
(R80, R81). -/
def quantiserRun (m k : Nat) : Nat × Nat :=
  ((510 * k - 255 + (2 * m - 1)) / (2 * m), min 255 ((510 * k + 254) / (2 * m)))

theorem q5_eq_iff_mem_quantiserRun (v : Byte) (k : BitVec 5) :
    q5 v = k ↔ (quantiserRun 31 k.toNat).1 ≤ v.toNat ∧ v.toNat ≤ (quantiserRun 31 k.toNat).2 := by
  have := v.isLt
  have := k.isLt
  simp only [BitVec.toNat_eq, quantiserRun, q5_toNat]
  omega

theorem q6_eq_iff_mem_quantiserRun (v : Byte) (k : BitVec 6) :
    q6 v = k ↔ (quantiserRun 63 k.toNat).1 ≤ v.toNat ∧ v.toNat ≤ (quantiserRun 63 k.toNat).2 := by
  have := v.isLt
  have := k.isLt
  simp only [BitVec.toNat_eq, quantiserRun, q6_toNat]
  omega

/-- Settles O15: the listed runs are the quantiser's own. -/
theorem lut5Listing : Obligations.Lut5Listing := by
  unfold Obligations.Lut5Listing
  intro runs v
  have listed : runs = (List.range 32).map (quantiserRun 31) := by decide
  rw [lut5Contents_read, listed]
  refine ⟨quantiserRun 31 (q5 v).toNat, ?_, (q5_eq_iff_mem_quantiserRun v _).mp rfl⟩
  rw [List.getElem?_map, List.getElem?_range (q5 v).isLt, Option.map_some]

/-- Settles O16: the listed runs are the quantiser's own. -/
theorem lut6Listing : Obligations.Lut6Listing := by
  unfold Obligations.Lut6Listing
  intro runs v
  have listed : runs = (List.range 64).map (quantiserRun 63) := by decide
  rw [lut6Contents_read, listed]
  refine ⟨quantiserRun 63 (q6 v).toNat, ?_, (q6_eq_iff_mem_quantiserRun v _).mp rfl⟩
  rw [List.getElem?_map, List.getElem?_range (q6 v).isLt, Option.map_some]

/-- Settles O17: the listed values are those of the integer forms, and an entry of `LUT888` is made of its channels. -/
theorem expansionListing : Obligations.ExpansionListing := by
  unfold Obligations.ExpansionListing
  intro fives sixes
  have listed5 : fives = (List.range 32).map fun b => (510 * b + 31) / 62 := by decide
  have listed6 : sixes = (List.range 64).map fun g => (510 * g + 63) / 126 := by decide
  refine ⟨fun b => ?_, fun g => ?_, lut888Contents_read⟩
  · rw [listed5, x5_toNat, List.getElem?_map, List.getElem?_range b.isLt, Option.map_some]
  · rw [listed6, x6_toNat, List.getElem?_map, List.getElem?_range g.isLt, Option.map_some]

end Sys2Proof.Machine

/-! PROOFS. `LUTINIT`: the command words of its opcode, and what it does with and without a payload (R65, R86). -/

namespace Sys2Proof

/-! ## Words that decode -/

theorem withoutImmediate_eq_ok {imm : BitVec 16} {i j : Instr} :
    withoutImmediate imm i = .ok j ↔ imm = 0#16 ∧ i = j := by
  unfold withoutImmediate
  split_ifs with zero <;> simp [zero]

/-- A row of the opcode map is read from no other fields than the ones it is encoded with (R64). -/
theorem encode_of_decodeOpcode {opc : BitVec 8} {imm : BitVec 16} {i : Instr} (decoded : decodeOpcode opc imm = .ok i) :
    encode i = commandWord imm opc := by
  unfold decodeOpcode at decoded
  split_ifs at decoded with lutinit expand compact palchk
  · obtain ⟨rfl, rfl⟩ := withoutImmediate_eq_ok.mp decoded
    rw [encode, lutinit]
  · obtain ⟨rfl, rfl⟩ := withoutImmediate_eq_ok.mp decoded
    rw [encode, expand]
  · obtain ⟨rfl, rfl⟩ := withoutImmediate_eq_ok.mp decoded
    rw [encode, compact]
  · obtain rfl := Except.ok.inj decoded
    rw [encode, palchk]

/-- A word with `RSV = 0` is made again of its other two fields (R61). -/
theorem commandWord_fields {cmd : Word} (reserved : rsvField cmd = 0#8) :
    commandWord (immField cmd) (opcField cmd) = cmd := by
  apply BitVec.eq_of_toNat_eq
  have zero : cmd.toNat / 256 % 256 = 0 := by rw [← rsvField_toNat, reserved]; rfl
  rw [commandWord_toNat, immField_toNat, opcField_toNat]
  omega

/-- No bit of a word that decodes is ignored (R64, R65). -/
theorem encode_of_decode {cmd : Word} {i : Instr} (decoded : decode cmd = .ok i) : encode i = cmd := by
  unfold decode at decoded
  split_ifs at decoded with reserved
  rw [encode_of_decodeOpcode decoded, commandWord_fields (not_not.mp reserved)]

theorem decode_eq_lutinit_iff {cmd : Word} : decode cmd = .ok .lutinit ↔ cmd = 0x00000001#32 := by
  constructor
  · intro decoded
    rw [← encode_of_decode decoded]
    decide
  · rintro rfl
    decide

/-- A word with the opcode of a command without an immediate, and with any other bit set, is illegal (R65). -/
theorem decode_error_of_ne_opcode {cmd : Word} {opc : Nat} (opcode : cmd.toNat % 256 = opc)
    (noImmediate : opc ∈ [1, 2, 3]) (otherBit : cmd.toNat ≠ opc) : ∃ e, decode cmd = .error e := by
  have otherField : cmd.toNat / 256 % 256 ≠ 0 ∨ cmd.toNat / 65536 ≠ 0 := by omega
  refine (decode_error_iff cmd).mpr (.inr ?_)
  rw [opcode]
  exact otherField.imp_right fun immediate => ⟨noImmediate, immediate⟩

end Sys2Proof

namespace Sys2Proof.Machine

variable {s : State} {r : Request}

/-! ## What the block holds -/

theorem x888_toNat_of_word (w : Rgb565) : (x888 w).toNat = (510 * (w.toNat / 2048) + 31) / 62 * 65536 +
    (510 * (w.toNat / 32 % 64) + 63) / 126 * 256 + (510 * (w.toNat % 32) + 31) / 62 := by
  simp only [x888_toNat, x5_toNat, x6_toNat, red5_toNat, green6_toNat, blue5_toNat]

/-! ## What the command does -/

theorem execLutinit_withoutPayload (flight : s.inFlight = some r) (wf : r.wellFormed = true) (empty : r.srcLen = 0#32) :
    execLutinit s = .next (s.loadTables.respond .ok false []) := by
  simp [execLutinit, withRequest_run flight wf, empty, requireLength]

theorem execLutinit_withPayload (flight : s.inFlight = some r) (wf : r.wellFormed = true)
    (payload : r.srcLen ≠ 0#32) : execLutinit s = .next (s.respond .invalidLength false []) := by
  have length : r.srcLen.toNat ≠ 0 := by simpa [BitVec.toNat_eq] using payload
  simp [execLutinit, withRequest_run flight wf, length, requireLength, raiseError]

theorem statusWord_success : statusWord true false .ok = 0x00000200#32 := by decide

theorem statusWord_invalidLength (ready : Bool) :
    statusWord ready false .invalidLength = if ready then 0x00000201#32 else 0x00000001#32 := by
  cases ready <;> decide

/-- Settles O21: the command's two ends with their statuses as numbers, and an illegal neighbour refused as by R164. -/
theorem lutinitFollowsItsRule : Obligations.LutinitFollowsItsRule := by
  intro s r flight wf
  refine ⟨fun empty => ⟨lut5Contents, lut6Contents, lut888Contents, ?_, fun v => ?_, fun v => ?_, fun w => ?_,
    fun inv ready => inv.whenReady ready⟩, fun payload => ?_, decode_eq_lutinit_iff, fun opcode otherBit => ?_⟩
  · rw [exec, execLutinit_withoutPayload flight wf empty, State.respond, State.loadTables_lutReady, statusWord_success]
    rfl
  · rw [lut5Contents_read, q5_toNat]
  · rw [lut6Contents_read, q6_toNat]
  · rw [lut888Contents_read, x888_toNat_of_word]
  · rw [exec, execLutinit_withPayload flight wf payload, State.respond, statusWord_invalidLength]
  · have neighbour : r.cmd.toNat ≠ 1 := by simpa [BitVec.toNat_eq] using otherBit
    obtain ⟨e, illegal⟩ := decode_error_of_ne_opcode opcode (by decide) neighbour
    exact illegalCommandsAreRefused.2 s r e flight wf illegal

end Sys2Proof.Machine

/-! PROOFS. `EXPAND`: the bit-field decoder in shifts and masks (R100), and what the command answers on every path (R103). -/

namespace Sys2Proof

/-- At most one word decodes to a command (R64, R68). -/
theorem decode_eq_ok_iff {cmd word : Word} {i : Instr} (legal : decode word = .ok i) :
    decode cmd = .ok i ↔ cmd = word :=
  ⟨fun decoded => (encode_of_decode decoded).symm.trans (encode_of_decode legal), fun eq => eq ▸ legal⟩

end Sys2Proof

namespace Sys2Proof.Machine

variable {s : State} {r : Request}

/-! ## The bit-field decoder and its inverse -/

/-- A field of a word, zero-extended, is a shift and a mask of the low `width` bits (R100). -/
theorem field_eq_shift_mask (w : Rgb565) (start width : Nat) :
    (w.extractLsb' start width).setWidth 16 = (w >>> start) &&& (BitVec.allOnes width).setWidth 16 := by
  ext i lt
  simp [Bool.and_comm]

/-- The packing as the OR of the shifted fields (R100, R121). -/
theorem pack565_eq_shift_or (r : BitVec 5) (g : BitVec 6) (b : BitVec 5) :
    pack565 r g b = (r.setWidth 16 <<< 11) ||| (g.setWidth 16 <<< 5) ||| b.setWidth 16 := by
  have whole : (pack565 r g b).toNat = (r ++ g ++ b).toNat := rfl
  apply BitVec.eq_of_toNat_eq
  have red := r.isLt
  have green := g.isLt
  have blue := b.isLt
  rw [whole, BitVec.toNat_append, BitVec.toNat_append, Nat.shiftLeft_or_distrib, ← Nat.shiftLeft_add]
  simp only [BitVec.toNat_or, BitVec.toNat_shiftLeft, BitVec.toNat_setWidth, Nat.shiftLeft_eq]
  congr 2 <;> omega

/-- Settles O19: the masks keep the fields' own bits, and the OR of the shifted fields is the packing. -/
theorem bitFieldDecoderIsABijection : Obligations.BitFieldDecoderIsABijection := by
  refine ⟨fun w => ⟨field_eq_shift_mask w 11 5, field_eq_shift_mask w 5 6, field_eq_shift_mask w 0 5⟩,
    fun w => ?_, fun r g b => ?_, pack565_fields⟩
  · rw [← pack565_eq_shift_or, pack565_fields]
  · simp [fields565]

/-! ## The destination of `EXPAND` -/

theorem expandBytes_length (lut888 : Lut Rgb888 16) (src : List Byte) :
    (expandBytes lut888 src).length = 3 * (src.length / 2) := by
  simp [expandBytes, pixels565_length, Nat.mul_comm]

/-- With the block's own table, the destination is the three channels of every pixel (R84, R103). -/
theorem expandBytes_contents (src : List Byte) : expandBytes lut888Contents src =
    (pixels565 src).flatMap fun w => [x5 (red5 w), x6 (green6 w), x5 (blue5 w)] := by
  simp only [expandBytes, expand565_contents, bytes888_x888]

/-- The three bytes that pixel `i` of the source becomes, at `3·i`, `3·i + 1` and `3·i + 2` (R103). -/
theorem expandBytes_contents_getElem? {src : List Byte} {i : Nat} {w : Rgb565} (pixel : (pixels565 src)[i]? = some w) :
    (expandBytes lut888Contents src)[3 * i]? = some (x5 (red5 w)) ∧
    (expandBytes lut888Contents src)[3 * i + 1]? = some (x6 (green6 w)) ∧
    (expandBytes lut888Contents src)[3 * i + 2]? = some (x5 (blue5 w)) := by
  have channel (k : Nat) {byte : Rgb565 → Byte}
      (at_k : ∀ w, [x5 (red5 w), x6 (green6 w), x5 (blue5 w)][k]? = some (byte w)) :
      (expandBytes lut888Contents src)[3 * i + k]? = some (byte w) := by
    rw [expandBytes_contents, getElem?_flatMap_of_width (width := 3) (fun _ => rfl) at_k, pixel, Option.map_some]
  exact ⟨channel 0 fun _ => rfl, channel 1 fun _ => rfl, channel 2 fun _ => rfl⟩

/-! ## What the command does -/

theorem requireReady_run {k : Host.Outcome State Fault Refusal} (ready : s.lutReady = true) : requireReady s k = k := by
  simp [requireReady, ready]

theorem requireReady_notReady {k : Host.Outcome State Fault Refusal} (notReady : s.lutReady = false) :
    requireReady s k = .next (s.respond .notReady false []) := by
  simp [requireReady, notReady, raiseError]

theorem execExpand_notReady (flight : s.inFlight = some r) (wf : r.wellFormed = true) (notReady : s.lutReady = false) :
    execExpand s = .next (s.respond .notReady false []) := by
  rw [execExpand, withRequest_run flight wf, requireReady_notReady notReady]

theorem execExpand_odd (flight : s.inFlight = some r) (wf : r.wellFormed = true) (ready : s.lutReady = true)
    (odd : r.srcLen.toNat % 2 = 1) : execExpand s = .next (s.respond .invalidLength false []) := by
  rw [execExpand, withRequest_run flight wf, requireReady_run ready]
  simp [requireLength, odd, raiseError]

theorem execExpand_even {lut888 : Lut Rgb888 16} (flight : s.inFlight = some r) (wf : r.wellFormed = true)
    (ready : s.lutReady = true) (even : r.srcLen.toNat % 2 = 0) (table : s.lut888 = some lut888) :
    execExpand s = .next (s.respond .ok false (expandBytes lut888 r.src)) := by
  rw [execExpand, withRequest_run flight wf, requireReady_run ready]
  simp [requireLength, even, withTable, table]

theorem statusWord_notReady : statusWord false false .notReady = 0x00000002#32 := by decide

/-- A word with the opcode of a command without an immediate, and with any other bit set, is answered as by R164. -/
theorem step_illegalNeighbour {opc : Nat} (flight : s.inFlight = some r) (wf : r.wellFormed = true)
    (opcode : r.cmd.toNat % 256 = opc) (noImmediate : opc ∈ [1, 2, 3]) (otherBit : r.cmd.toNat ≠ opc) :
    step s = .next { s with inFlight := none, responses := s.responses ++
      [⟨if s.lutReady then 0x00000203#32 else 0x00000003#32, []⟩] } := by
  obtain ⟨e, illegal⟩ := decode_error_of_ne_opcode opcode noImmediate otherBit
  exact illegalCommandsAreRefused.2 s r e flight wf illegal

/-- Settles O22: the command's three ends with their statuses as numbers; the bytes of a pixel are the closed forms of its
fields, since the word of its two bytes is the `w` of the statement. -/
theorem expandFollowsItsRule : Obligations.ExpandFollowsItsRule := by
  intro s r inv flight wf
  refine ⟨fun ready even => ⟨expandBytes lut888Contents r.src, ?_, ?_, fun i lo hi w low high word => ?_⟩,
    fun notReady => ?_, fun ready odd => ?_, decode_eq_ok_iff (by decide), fun opcode otherBit => ?_⟩
  · obtain ⟨_, _, table⟩ := inv.whenReady ready
    rw [exec, execExpand_even flight wf ready even table, State.respond, ready, statusWord_success]
  · rw [expandBytes_length, Request.wellFormed_iff.mp wf]
  · have pixel : (pixels565 r.src)[i]? = some (word565 lo hi) := by simp [pixels565_getElem?, low, high]
    obtain ⟨red, green, blue⟩ := expandBytes_contents_getElem? pixel
    rw [← word565_toNat] at word
    simp only [red, green, blue, Option.map_some, x5_toNat, x6_toNat, red5_toNat, green6_toNat, blue5_toNat, word,
      and_self]
  · rw [exec, execExpand_notReady flight wf notReady, State.respond, notReady, statusWord_notReady]
  · rw [exec, execExpand_odd flight wf ready odd, State.respond, ready, statusWord_invalidLength, if_pos rfl]
  · exact step_illegalNeighbour flight wf opcode (by decide) (by simpa [BitVec.toNat_eq] using otherBit)

end Sys2Proof.Machine

/-! PROOFS. `COMPACT`: the two bytes a pixel of the source becomes (R121), and what the command answers on every path
(R122). -/

namespace Sys2Proof.Machine

variable {s : State} {r : Request}

/-! ## The destination of `COMPACT` -/

theorem compactBytes_length (lut5 : Lut (BitVec 5) 8) (lut6 : Lut (BitVec 6) 8) (src : List Byte) :
    (compactBytes lut5 lut6 src).length = 2 * (src.length / 3) := by
  simp [compactBytes, pixels888_length, Nat.mul_comm]

/-- The two bytes that pixel `i` of the source becomes, at `2·i` and `2·i + 1`, low byte first (R121, R122). -/
theorem compactBytes_getElem? {lut5 : Lut (BitVec 5) 8} {lut6 : Lut (BitVec 6) 8} {src : List Byte} {i : Nat}
    {red green blue : Byte} (pixel : (pixels888 src)[i]? = some (red, green, blue)) :
    (compactBytes lut5 lut6 src)[2 * i]? = some ((compact888 lut5 lut6 red green blue).extractLsb' 0 8) ∧
    (compactBytes lut5 lut6 src)[2 * i + 1]? = some ((compact888 lut5 lut6 red green blue).extractLsb' 8 8) := by
  have part (k : Nat) {byte : Rgb565 → Byte} (at_k : ∀ w, (bytes565 w)[k]? = some (byte w)) :
      (compactBytes lut5 lut6 src)[2 * i + k]? = some (byte (compact888 lut5 lut6 red green blue)) := by
    rw [compactBytes, getElem?_flatMap_of_width (fun _ => bytes565_length _) (fun _ => at_k _), pixel, Option.map_some]
  exact ⟨part 0 fun _ => rfl, part 1 fun _ => rfl⟩

/-- With the block's own tables, the packed pixel is the three closed forms of R80 and R81 side by side (R120, R121). -/
theorem compact888_contents_toNat (red green blue : Byte) :
    (compact888 lut5Contents lut6Contents red green blue).toNat = (62 * red.toNat + 255) / 510 * 2048 +
      (126 * green.toNat + 255) / 510 * 32 + (62 * blue.toNat + 255) / 510 := by
  rw [compact888_contents, pack565_toNat, q5_toNat, q6_toNat, q5_toNat]

/-! ## What the command does -/

theorem execCompact_notReady (flight : s.inFlight = some r) (wf : r.wellFormed = true) (notReady : s.lutReady = false) :
    execCompact s = .next (s.respond .notReady false []) := by
  rw [execCompact, withRequest_run flight wf, requireReady_notReady notReady]

theorem execCompact_partialPixel (flight : s.inFlight = some r) (wf : r.wellFormed = true) (ready : s.lutReady = true)
    (partialPixel : r.srcLen.toNat % 3 ≠ 0) : execCompact s = .next (s.respond .invalidLength false []) := by
  rw [execCompact, withRequest_run flight wf, requireReady_run ready]
  simp [requireLength, partialPixel, raiseError]

theorem execCompact_wholePixels {lut5 : Lut (BitVec 5) 8} {lut6 : Lut (BitVec 6) 8} (flight : s.inFlight = some r)
    (wf : r.wellFormed = true) (ready : s.lutReady = true) (wholePixels : r.srcLen.toNat % 3 = 0)
    (table5 : s.lut5 = some lut5) (table6 : s.lut6 = some lut6) :
    execCompact s = .next (s.respond .ok false (compactBytes lut5 lut6 r.src)) := by
  rw [execCompact, withRequest_run flight wf, requireReady_run ready]
  simp [requireLength, wholePixels, withTable, table5, table6]

/-- Settles O23: the command's three ends with their statuses as numbers; the two bytes of a pixel are the word they were
cut from, which is packed of the closed forms. -/
theorem compactFollowsItsRule : Obligations.CompactFollowsItsRule := by
  intro s r inv flight wf
  refine ⟨fun ready wholePixels => ⟨compactBytes lut5Contents lut6Contents r.src, ?_, ?_,
    fun i red green blue atRed atGreen atBlue => ?_⟩, fun notReady => ?_, fun ready partialPixel => ?_,
    decode_eq_ok_iff (by decide), fun opcode otherBit => ?_⟩
  · obtain ⟨table5, table6, _⟩ := inv.whenReady ready
    rw [exec, execCompact_wholePixels flight wf ready wholePixels table5 table6, State.respond, ready,
      statusWord_success]
  · rw [compactBytes_length, Request.wellFormed_iff.mp wf]
  · obtain ⟨low, high⟩ := compactBytes_getElem? (lut5 := lut5Contents) (lut6 := lut6Contents)
      (pixels888_getElem?_eq_some.mpr ⟨atRed, atGreen, atBlue⟩)
    refine ⟨_, _, low, high, ?_⟩
    rw [← word565_toNat, word565_bytes, compact888_contents_toNat]
  · rw [exec, execCompact_notReady flight wf notReady, State.respond, notReady, statusWord_notReady]
  · rw [exec, execCompact_partialPixel flight wf ready partialPixel, State.respond, ready, statusWord_invalidLength,
      if_pos rfl]
  · exact step_illegalNeighbour flight wf opcode (by decide) (by simpa [BitVec.toNat_eq] using otherBit)

end Sys2Proof.Machine

/-! PROOFS. `PALCHK`: the one command word with an immediate (R62, R64), the verdict as a status (R140), and what the command
answers on every path (R141). -/

namespace Sys2Proof

/-! ## The fields of a command word -/

@[simp] theorem opcField_commandWord (imm : BitVec 16) (opc : BitVec 8) : opcField (commandWord imm opc) = opc := by
  apply BitVec.eq_of_toNat_eq
  rw [opcField_toNat, commandWord_toNat]
  omega

@[simp] theorem rsvField_commandWord (imm : BitVec 16) (opc : BitVec 8) : rsvField (commandWord imm opc) = 0#8 := by
  apply BitVec.eq_of_toNat_eq
  rw [rsvField_toNat, commandWord_toNat, BitVec.toNat_ofNat]
  omega

@[simp] theorem immField_commandWord (imm : BitVec 16) (opc : BitVec 8) : immField (commandWord imm opc) = imm := by
  apply BitVec.eq_of_toNat_eq
  rw [immField_toNat, commandWord_toNat]
  omega

/-- A command word is decoded by the opcode map alone, since its `RSV` is 0 (R61, R64). -/
theorem decode_commandWord (imm : BitVec 16) (opc : BitVec 8) : decode (commandWord imm opc) = decodeOpcode opc imm := by
  simp [decode]

/-- Every count is legal in the encoding of `PALCHK`, and no other word decodes to it (R64, R68). -/
theorem decode_eq_palchk_iff {cmd : Word} {count : BitVec 16} :
    decode cmd = .ok (.palchk count) ↔ cmd.toNat = count.toNat * 65536 + 4 := by
  have legal : decode (commandWord count 0x04#8) = .ok (.palchk count) := by
    rw [decode_commandWord]
    rfl
  rw [decode_eq_ok_iff legal, BitVec.toNat_eq, commandWord_toNat, BitVec.toNat_ofNat]

end Sys2Proof

namespace Sys2Proof.Machine

variable {s : State} {r : Request} {count : BitVec 16} {src : List Byte}

/-! ## The verdict -/

/-- The verdict on one index is the one on the buffer that holds it alone (R140, R141). -/
theorem inRange_iff {index : Byte} : inRange count index = true ↔ index.toNat < count.toNat := by
  simpa [allInRange] using allInRange_iff (count := count) (src := [index])

theorem statusWord_allInRange (inside : ∀ index ∈ src, index.toNat < count.toNat) :
    statusWord true (allInRange count src) .ok = 0x00000300#32 := by
  rw [allInRange_iff.mpr inside]
  decide

theorem statusWord_not_allInRange (outside : ¬ ∀ index ∈ src, index.toNat < count.toNat) :
    statusWord true (allInRange count src) .ok = 0x00000200#32 := by
  rw [Bool.eq_false_iff.mpr (outside ∘ allInRange_iff.mp), statusWord_success]

/-! ## What the command does -/

theorem execPalchk_notReady (flight : s.inFlight = some r) (wf : r.wellFormed = true) (notReady : s.lutReady = false) :
    execPalchk count s = .next (s.respond .notReady false []) := by
  rw [execPalchk, withRequest_run flight wf, requireReady_notReady notReady]

theorem execPalchk_ready (flight : s.inFlight = some r) (wf : r.wellFormed = true) (ready : s.lutReady = true) :
    execPalchk count s = .next (s.respond .ok (allInRange count r.src) []) := by
  rw [execPalchk, withRequest_run flight wf, requireReady_run ready]

/-- Settles O24: the command's two ends with their statuses as numbers. In the corner cases every index is below the count
(no index, or a count above every byte) or the first one is not (a count of 0). -/
theorem palchkFollowsItsRule : Obligations.PalchkFollowsItsRule := by
  intro s r count flight wf
  refine ⟨fun ready => ⟨statusWord true (allInRange count r.src) .ok, ?_, statusWord_allInRange,
    statusWord_not_allInRange, fun empty => ?_, fun zero nonempty => ?_, fun large => ?_⟩, fun notReady => ?_,
    decode_eq_palchk_iff, fun _ reserved => ?_, fun index => inRange_iff⟩
  · rw [exec, execPalchk_ready flight wf ready, State.respond, ready]
  · exact statusWord_allInRange (by simp [empty])
  · obtain ⟨index, found⟩ := List.exists_mem_of_ne_nil _ nonempty
    exact statusWord_not_allInRange fun inside => by simpa [zero] using inside index found
  · exact statusWord_allInRange fun index _ => index.isLt.trans_le large
  · rw [exec, execPalchk_notReady flight wf notReady, State.respond, notReady, statusWord_notReady]
  · obtain ⟨e, illegal⟩ := (decode_error_iff r.cmd).mpr (.inr (.inl reserved))
    exact illegalCommandsAreRefused.2 s r e flight wf illegal

end Sys2Proof.Machine

/-! PROOFS. Errors: which check of a transaction gives the code (R165), and an error changes nothing but the responses
(R166). -/

namespace Sys2Proof.Machine

variable {s t : State} {r : Request}

/-! ## The order of the checks -/

/-- A legal `CMD` leaves the other checks to its command (R165). -/
theorem transact_of_decode {i : Instr} (decoded : decode r.cmd = .ok i) : transact r s = exec i s := by
  simp only [transact, decoded]

/-- R165's checks 2 and 3 as a function: the code of the first one that a command fails, with `LUT_READY` and `SRC_LEN` at
hand; `OK` when it fails none. -/
def commandCheck (ready : Bool) (srcLen : Nat) : Instr → ErrCode
  | .lutinit => if srcLen ≠ 0 then .invalidLength else .ok
  | .expand => if ready = false then .notReady else if srcLen % 2 ≠ 0 then .invalidLength else .ok
  | .compact => if ready = false then .notReady else if srcLen % 3 ≠ 0 then .invalidLength else .ok
  | .palchk _ => if ready = false then .notReady else .ok

/-- The response a command adds has the code of its first failing check (R165). -/
theorem exec_code {i : Instr} (flight : s.inFlight = some r) (h : exec i s = .next t) : ∃ resp,
    t.responses = s.responses ++ [resp] ∧
      resp.status.toNat % 16 = (commandCheck s.lutReady r.srcLen.toNat i).bits.toNat := by
  cases i with
  | lutinit =>
    obtain ⟨q, flight', _, ends⟩ := execLutinit_cases h
    obtain rfl : r = q := Option.some.inj (flight.symm.trans flight')
    obtain ⟨empty, rfl⟩ | ⟨payload, rfl⟩ := ends
    · exact ⟨_, rfl, by simp [statusWord_err, commandCheck, empty]⟩
    · exact ⟨_, rfl, by simp [statusWord_err, commandCheck, payload]⟩
  | expand =>
    obtain ⟨q, flight', _, ends⟩ := execExpand_cases h
    obtain rfl : r = q := Option.some.inj (flight.symm.trans flight')
    obtain ⟨notReady, rfl⟩ | ⟨ready, odd, rfl⟩ | ⟨ready, even, _, _, rfl⟩ := ends
    · exact ⟨_, rfl, by simp [statusWord_err, commandCheck, notReady]⟩
    · exact ⟨_, rfl, by simp [statusWord_err, commandCheck, ready, odd]⟩
    · exact ⟨_, rfl, by simp [statusWord_err, commandCheck, ready, even]⟩
  | compact =>
    obtain ⟨q, flight', _, ends⟩ := execCompact_cases h
    obtain rfl : r = q := Option.some.inj (flight.symm.trans flight')
    obtain ⟨notReady, rfl⟩ | ⟨ready, partialPixel, rfl⟩ | ⟨ready, wholePixels, _, _, _, _, rfl⟩ := ends
    · exact ⟨_, rfl, by simp [statusWord_err, commandCheck, notReady]⟩
    · exact ⟨_, rfl, by simp [statusWord_err, commandCheck, ready, partialPixel]⟩
    · exact ⟨_, rfl, by simp [statusWord_err, commandCheck, ready, wholePixels]⟩
  | palchk count =>
    obtain ⟨_, _, _, ⟨notReady, rfl⟩ | ⟨ready, rfl⟩⟩ := execPalchk_cases h
    · exact ⟨_, rfl, by simp [statusWord_err, commandCheck, notReady]⟩
    · exact ⟨_, rfl, by simp [statusWord_err, commandCheck, ready]⟩

/-- Settles O30: check 1 is the decoder's, and the checks after it are `commandCheck`'s, in the same order. -/
theorem firstFailingCheckGivesTheCode : Obligations.FirstFailingCheckGivesTheCode := by
  intro s r inv flight wf
  rw [step_of_inFlight flight]
  cases decoded : decode r.cmd with
  | error e =>
    have code : (statusWord s.lutReady false .illegalCmd).toNat % 16 = 3 := statusWord_err ..
    exact ⟨_, _, transact_illegalCmd flight wf decoded, rfl, code, fun ok => absurd (code.symm.trans ok) (by decide)⟩
  | ok i =>
    obtain ⟨t, done⟩ := exec_answers i inv flight wf
    obtain ⟨resp, added, code⟩ := exec_code flight done
    refine ⟨t, resp, (transact_of_decode decoded).trans done, added, ?_, fun _ => ⟨i, rfl, done⟩⟩
    cases i <;> simp only [code, commandCheck, apply_ite ErrCode.bits, apply_ite BitVec.toNat] <;> rfl

/-! ## The effect of an error -/

/-- A response to a request that an idle block took leaves the block as it was before it took it. -/
theorem State.respond_accept_of_idle (idle : s.inFlight = none) (err : ErrCode) (result : Bool) (dst : List Byte) :
    (s.accept r).respond err result dst =
      { s with responses := s.responses ++ [⟨statusWord s.lutReady result err, dst⟩] } := by
  simp [State.accept, State.respond, idle]

/-- Settles O31: of the three ends of a transaction only the error has a code other than 0, and it only responds. -/
theorem errorsChangeNothing : Obligations.ErrorsChangeNothing := by
  intro s t r rest resp idle plan stepped added failed
  rw [step_of_issue idle plan] at stepped
  obtain ⟨_, ended⟩ := transact_cases (State.accept_inFlight _ r) stepped
  cases ended with
  | error code _ eq =>
    rw [State.respond_accept_of_idle (s := { s with host := rest }) idle] at eq
    obtain rfl : resp = ⟨statusWord s.lutReady false code, []⟩ := by simpa [eq] using added.symm
    exact ⟨eq, rfl, by simp, by simp⟩
  | tablesWritten eq =>
    obtain rfl : resp = ⟨statusWord true false .ok, []⟩ := by simpa [eq] using added.symm
    exact absurd (statusWord_err ..) failed
  | success result dst _ eq =>
    obtain rfl : resp = ⟨statusWord s.lutReady result .ok, dst⟩ := by simpa [eq] using added.symm
    exact absurd (statusWord_err ..) failed

end Sys2Proof.Machine

/-! PROOFS. Boot and reset: only `LUTINIT` has an effect on a block that is not ready, and it leaves a good, ready block
(R182); a reset in place of a response leaves nothing of the request (R181). -/

namespace Sys2Proof.Machine

variable {s : State} {r : Request}

/-! ## Before and after the first `LUTINIT` -/

/-- Every command but `LUTINIT` asks for `LUT_READY` first, whatever its length (R163, R165). -/
theorem exec_notReady {i : Instr} (flight : s.inFlight = some r) (wf : r.wellFormed = true)
    (notReady : s.lutReady = false) (other : i ≠ .lutinit) : exec i s = .next (s.respond .notReady false []) := by
  cases i with
  | lutinit => exact absurd rfl other
  | expand => exact execExpand_notReady flight wf notReady
  | compact => exact execCompact_notReady flight wf notReady
  | palchk count => exact execPalchk_notReady flight wf notReady

/-- The tables that `LUTINIT` writes meet the invariant, whatever the block held (R86). -/
theorem State.loadTables_inv (s : State) : s.loadTables.Inv :=
  ⟨fun _ => ⟨rfl, rfl, rfl⟩, fun notReady => absurd notReady (by simp)⟩

/-- Ending a transaction touches no part of the invariant. -/
theorem State.Inv.respond (inv : s.Inv) (err : ErrCode) (result : Bool) (dst : List Byte) :
    (s.respond err result dst).Inv :=
  ⟨inv.whenReady, inv.whenNotReady⟩

/-- Settles O41: the check of `LUT_READY` fails for every other command, and `LUTINIT` has no such check. -/
theorem lutinitComesFirst : Obligations.LutinitComesFirst := by
  refine ⟨fun s r i flight wf notReady decoded other => ?_, fun s r flight wf lutinit empty => ?_⟩
  · rw [step_of_inFlight flight, transact_of_decode decoded, exec_notReady flight wf notReady other, State.respond,
      notReady, statusWord_notReady]
  · have done : step s = .next (s.loadTables.respond .ok false []) := by
      rw [step_of_inFlight flight, transact_of_decode (decode_eq_lutinit_iff.mpr lutinit), exec,
        execLutinit_withoutPayload flight wf empty]
    refine ⟨_, done, s.loadTables_inv.respond .., rfl, ?_⟩
    rw [State.respond_responses, State.loadTables_lutReady, statusWord_success, State.loadTables_responses]

/-! ## Reset during a transaction -/

/-- A reset leaves no trace of a request that was in flight (R181). -/
@[simp] theorem State.accept_resetBlock (s : State) (r : Request) : (s.accept r).resetBlock = s.resetBlock := rfl

/-- An idle block is reset alike by a reset alone and by one before the response to a request (R180, R181). -/
theorem step_of_reset {rest : List HostAction} (idle : s.inFlight = none)
    (plan : s.host = .assertReset :: rest ∨ ∃ r, s.host = .abort r :: rest) :
    step s = .next { s with host := rest }.resetBlock := by
  obtain plan | ⟨r, plan⟩ := plan
  · simp only [step, idle, plan, hostAct]
  · simp only [step, idle, plan, hostAct, State.accept_resetBlock]

/-- Settles O2: the abort and a reset alone answer the same cleared block, which `lutinitComesFirst` speaks of. -/
theorem resetAbortsTheTransaction : Obligations.ResetAbortsTheTransaction := by
  intro s r rest idle _ plan
  refine ⟨{ s with host := rest }.resetBlock, step_of_reset idle (.inr ⟨r, plan⟩), rfl, rfl, rfl, rfl, rfl,
    List.Sublist.refl _, step_of_reset (s := { s with host := .assertReset :: rest }) idle (.inl rfl), ?_⟩
  intro q i wf decoded other
  exact lutinitComesFirst.1 _ q i (State.accept_inFlight _ q) wf rfl decoded other

end Sys2Proof.Machine

/-! PROOFS. What every step keeps: the invariant of the tables (R20, R25), the host's contract (R67) and legal responses
(R28, R161, R166), read off the ways a step can go. -/

namespace Sys2Proof.Machine

variable {s t : State}

/-! ## The invariant -/

/-- The host's plan is no part of the invariant. -/
theorem State.Inv.withPlan (inv : s.Inv) (plan : List HostAction) : { s with host := plan }.Inv :=
  ⟨inv.whenReady, inv.whenNotReady⟩

/-- However a transaction ends, the block meets the invariant again: only `LUTINIT` writes the tables, all at once (R86). -/
theorem TransactionEnd.inv (done : TransactionEnd s t) (inv : s.Inv) : t.Inv := by
  cases done with
  | error code _ eq => exact eq ▸ inv.respond ..
  | tablesWritten eq => exact eq ▸ s.loadTables_inv.respond ..
  | success result dst _ eq => exact eq ▸ inv.respond ..

theorem step_keeps_inv (inv : s.Inv) (stepped : step s = .next t) : t.Inv := by
  obtain ⟨r, _, _, _, ended⟩ | ⟨_, _, rfl⟩ | ⟨r, rest, _, _, _, _, ended⟩ | ⟨rest, _, _, rfl⟩ := step_cases stepped
  · exact ended.inv inv
  · exact inv
  · exact ended.inv ((inv.withPlan rest).accept r)
  · exact State.resetBlock_inv _

/-- Settles O35: a transaction's end and a reset each leave a good block. -/
theorem stepKeepsTheInvariant : Obligations.StepKeepsTheInvariant := fun _ _ => step_keeps_inv

/-! ## Legal responses -/

/-- Bits 7:4 and 31:10 of every status word are 0 (R28). -/
theorem statusWord_reservedBits (ready result : Bool) (err : ErrCode) :
    statusWord ready result err &&& 0xFFFFFCF0#32 = 0#32 := by
  cases ready <;> cases result <;> cases err <;> decide

/-- A status word with its code is a legal response when an error comes with no result and no bytes (R28, R161, R166). -/
theorem Response.legal_of_statusWord {ready result : Bool} {err : ErrCode} {dst : List Byte}
    (noOutput : err ≠ .ok → result = false ∧ dst = []) : (Response.mk (statusWord ready result err) dst).Legal where
  reservedBits := statusWord_reservedBits ready result err
  errorCode := by
    rw [statusWord_err]
    cases err <;> decide
  noOutputOnError failed := by
    have isError : err ≠ .ok := fun ok => failed (by rw [statusWord_err, ErrCode.bits_toNat_eq_zero.mpr ok])
    simpa using noOutput isError

/-- However a transaction ends, it adds one response, and a legal one. -/
theorem TransactionEnd.legal_response (done : TransactionEnd s t) :
    ∃ resp, t.responses = s.responses ++ [resp] ∧ resp.Legal := by
  obtain ⟨code, _, rfl⟩ | ⟨rfl⟩ | ⟨result, dst, _, rfl⟩ := done
  · exact ⟨_, rfl, Response.legal_of_statusWord fun _ => ⟨rfl, rfl⟩⟩
  · exact ⟨_, rfl, Response.legal_of_statusWord fun isError => absurd rfl isError⟩
  · exact ⟨_, rfl, Response.legal_of_statusWord fun isError => absurd rfl isError⟩

theorem TransactionEnd.responsesLegal (done : TransactionEnd s t) (legal : s.ResponsesLegal) : t.ResponsesLegal := by
  obtain ⟨resp, added, respLegal⟩ := done.legal_response
  intro r member
  obtain old | rfl : r ∈ s.responses ∨ r = resp := by simpa [added] using member
  · exact legal r old
  · exact respLegal

/-- Settles O36: a transaction adds one legal response, and every other step adds none. -/
theorem responsesStayLegal : Obligations.ResponsesStayLegal := by
  intro s t legal stepped
  obtain ⟨_, _, _, _, ended⟩ | ⟨_, _, rfl⟩ | ⟨_, _, _, _, _, _, ended⟩ | ⟨_, _, _, rfl⟩ := step_cases stepped
  · exact ended.responsesLegal legal
  · exact legal
  · exact ended.responsesLegal legal
  · exact legal

/-! ## The host's side -/

theorem step_inFlight (stepped : step s = .next t) : t.inFlight = none := by
  obtain ⟨_, _, _, _, ended⟩ | ⟨idle, _, rfl⟩ | ⟨_, _, _, _, _, _, ended⟩ | ⟨_, _, _, rfl⟩ := step_cases stepped
  · exact ended.inFlight
  · exact idle
  · exact ended.inFlight
  · rfl

/-- Settles O37: the end of a transaction and a reset clear what was in flight, and an idle block had nothing. -/
theorem nothingInFlightAfterAStep : Obligations.NothingInFlightAfterAStep := fun _ _ => step_inFlight

/-- Settles O40: `step_cases` says what each kind of step does to the plan and to the responses. -/
theorem hostActsInOrder : Obligations.HostActsInOrder := by
  intro s t stepped
  obtain ⟨r, flight, _, _, ended⟩ | ⟨idle, noAction, rfl⟩ | ⟨_, _, idle, plan, _, _, ended⟩ | ⟨_, idle, plan, rfl⟩ :=
    step_cases stepped
  · exact ⟨fun _ _ => ended.host, fun idle => absurd (flight.symm.trans idle) (by simp), .inr ended.responses⟩
  · exact ⟨fun _ _ => rfl, fun _ => by simp [noAction], .inl rfl⟩
  · exact ⟨fun _ flight => absurd (idle.symm.trans flight) (by simp), fun _ => by simp [ended.host, plan],
      .inr ended.responses⟩
  · refine ⟨fun _ flight => absurd (idle.symm.trans flight) (by simp), fun _ => ?_, .inl rfl⟩
    obtain plan | ⟨_, plan⟩ := plan <;> simp [plan]

/-- A step never adds to the host's plan. -/
theorem step_host_subset (stepped : step s = .next t) : t.host ⊆ s.host := by
  obtain ⟨whenBusy, whenIdle, _⟩ := hostActsInOrder s t stepped
  cases flight : s.inFlight with
  | none => exact whenIdle flight ▸ List.tail_subset _
  | some r => exact whenBusy r flight ▸ List.Subset.refl _

theorem step_keeps_hostContract (contract : s.HostContract) (stepped : step s = .next t) : t.HostContract where
  inFlight r flight := absurd ((step_inFlight stepped).symm.trans flight) (by simp)
  planned r member := contract.planned r (step_host_subset stepped member)

/-! ## A good block never stops -/

/-- An idle block with no planned action stays as it is (R173). -/
theorem step_of_noAction (idle : s.inFlight = none) (plan : s.host = []) : step s = .next s := by
  simp only [step, idle, plan]

theorem step_answers (inv : s.Inv) (contract : s.HostContract) : ∃ t, step s = .next t := by
  cases flight : s.inFlight with
  | some r =>
    rw [step_of_inFlight flight]
    exact transact_answers inv flight (contract.inFlight r flight)
  | none =>
    match plan : s.host with
    | [] => exact ⟨s, step_of_noAction flight plan⟩
    | .issue r :: rest =>
      rw [step_of_issue flight plan]
      exact transact_answers ((inv.withPlan rest).accept r) (State.accept_inFlight _ r)
        (contract.planned r (by simp [plan]))
    | .abort r :: rest => exact ⟨_, step_of_reset flight (.inr ⟨r, plan⟩)⟩
    | .assertReset :: rest => exact ⟨_, step_of_reset flight (.inl plan)⟩

/-- Settles O47: a good block answers, and every step keeps the invariant and the contract. -/
theorem goodBlockNeverStops : Obligations.GoodBlockNeverStops := by
  intro s inv contract
  obtain ⟨t, stepped⟩ := step_answers inv contract
  exact ⟨t, stepped, step_keeps_inv inv stepped, step_keeps_hostContract contract stepped⟩

/-! ## Reset and the idle block -/

/-- Settles O34: reset leaves a good block, and the host's lists are empty. -/
theorem resetMeetsTheInvariant : Obligations.ResetMeetsTheInvariant := by
  refine ⟨State.reset.resetBlock_inv, ⟨?_, ?_⟩, ?_⟩
  · simp [State.reset]
  · simp [State.reset]
  · simp [State.ResponsesLegal, State.reset]

/-- Settles O4: the reset state is idle and its plan is empty. -/
theorem idleBlockKeepsItsState : Obligations.IdleBlockKeepsItsState :=
  ⟨fun _ => step_of_noAction, step_of_noAction rfl rfl⟩

/-- Settles O51: a reset of an idle block touches the block's own fields only. -/
theorem resetLeavesTheHostsLists : Obligations.ResetLeavesTheHostsLists := fun _ _ => step_of_reset

/-- The command of the request that an idle block takes is run (R49, R165). -/
theorem step_of_issue_decode {r : Request} {rest : List HostAction} {i : Instr} (idle : s.inFlight = none)
    (plan : s.host = .issue r :: rest) (decoded : decode r.cmd = .ok i) :
    step s = exec i ({ s with host := rest }.accept r) :=
  (step_of_issue idle plan).trans (transact_of_decode decoded)

/-- Settles O3: the reset leaves a block that is not ready, and `EXPAND` checks that first. -/
theorem abortedLutinitLeavesNotReady : Obligations.AbortedLutinitLeavesNotReady := by
  intro s r q rest idle _ expand wf plan
  have decoded : decode q.cmd = .ok .expand := by rw [expand]; decide
  have reset := step_of_reset idle (.inr ⟨r, plan⟩)
  have answered : step { s with host := .issue q :: rest }.resetBlock =
      .next (({ s with host := rest }.resetBlock.accept q).respond .notReady false []) :=
    (step_of_issue_decode rfl rfl decoded).trans (exec_notReady (State.accept_inFlight _ q) wf rfl (by simp))
  refine ⟨_, _, reset, answered, rfl, rfl, ?_⟩
  simp [statusWord_notReady]

end Sys2Proof.Machine

/-! PROOFS. Words and bytes: the encoder against the decoder (R64, R65, R68), requests and responses as a transport's bytes
(R60, R69), error codes (R161), and the request of an opcode-table word. -/

namespace Sys2Proof

/-! ## The command word -/

/-- The opcode map reads back every row it is encoded from (R64). -/
theorem decode_encode (i : Instr) : decode (encode i) = .ok i := by
  cases i with
  | lutinit => exact decode_commandWord ..
  | expand => exact decode_commandWord ..
  | compact => exact decode_commandWord ..
  | palchk count => exact decode_commandWord ..

/-- Settles O5: command by command, the opcode map on the encoded fields. -/
theorem decodeEncodeRoundTrip : Obligations.DecodeEncodeRoundTrip := decode_encode

/-- Settles O6: a word that decodes has no bit outside the fields it is encoded from. -/
theorem decodedWordIsItsEncoding : Obligations.DecodedWordIsItsEncoding := fun _ _ => encode_of_decode

/-- Settles O8: the nine words are closed, and the decoder runs. -/
theorem specWordsDecode : Obligations.SpecWordsDecode := by
  refine ⟨?_, ?_, ?_, ?_, ?_, ?_, ?_, ?_, ?_⟩ <;> decide

/-! ## The bytes of a word -/

@[simp] theorem bytesOfWord_length (w : Word) : (bytesOfWord w).length = 4 := rfl

/-- Byte `k` of a word is its `k`-th digit in base 256 (decision D15). -/
theorem bytesOfWord_getElem? (w : Word) {k : Nat} (lt : k < 4) :
    ((bytesOfWord w)[k]?).map BitVec.toNat = some (w.toNat / 256 ^ k % 256) := by
  match k, lt with
  | 0, _ | 1, _ | 2, _ | 3, _ => simp [bytesOfWord, Nat.shiftRight_eq_div_pow]

/-- Two words with the same bytes are equal, since a word is made again of its bytes. -/
theorem bytesOfWord_injective : Function.Injective bytesOfWord := by
  intro v w same
  simp only [bytesOfWord, List.cons.injEq] at same
  obtain ⟨byte0, byte1, byte2, byte3, _⟩ := same
  rw [← wordOfBytes_bytes v, ← wordOfBytes_bytes w, byte0, byte1, byte2, byte3]

/-! ## A request as bytes -/

/-- A descriptor is read back from its bytes, whatever follows them (R60). -/
theorem readDescriptor_bytes (cmd srcLen : Word) (rest : List Byte) :
    readDescriptor (bytesOfWord cmd ++ bytesOfWord srcLen ++ rest) = some (cmd, srcLen, rest) := by
  simp [bytesOfWord, readDescriptor, wordOfBytes_bytes]

theorem readDescriptor_request (r : Request) : readDescriptor r.bytes = some (r.cmd, r.srcLen, r.src) :=
  readDescriptor_bytes ..

theorem readRequest_bytes (r : Request) : readRequest r.bytes = some r := by
  simp only [readRequest, readDescriptor_request]

theorem decodeBytes_bytes {r : Request} {i : Instr} (decoded : decode r.cmd = .ok i) :
    decodeBytes r.bytes = .ok (i, r.srcLen, r.src) := by
  simp only [decodeBytes, readDescriptor_request, decoded]

/-- Settles O9: the two words stand at bytes 0 to 3 and 4 to 7, and the payload follows. -/
theorem requestBytesRoundTrip : Obligations.RequestBytesRoundTrip := by
  intro r
  refine ⟨⟨by simp [Request.bytes]; omega, rfl, fun k lt => ⟨?_, ?_⟩⟩, readRequest_bytes r, fun i => decodeBytes_bytes⟩
  · rw [← bytesOfWord_getElem? r.cmd lt, Request.bytes, List.append_assoc, List.getElem?_append_left lt]
  · rw [← bytesOfWord_getElem? r.srcLen lt, Request.bytes, List.append_assoc,
      List.getElem?_append_right (Nat.le_add_right 4 k), bytesOfWord_length, Nat.add_sub_cancel_left,
      List.getElem?_append_left lt]

/-! ## The request of an opcode-table word -/

/-- The first four of the bytes of a number are its low 32 bits. -/
theorem wordOfBytes_ofNat (n : Nat) : wordOfBytes (BitVec.ofNat 8 n) (BitVec.ofNat 8 (n / 256))
    (BitVec.ofNat 8 (n / 256 / 256)) (BitVec.ofNat 8 (n / 256 / 256 / 256)) = BitVec.ofNat 32 n := by
  apply BitVec.eq_of_toNat_eq
  simp only [wordOfBytes_toNat, BitVec.toNat_ofNat]
  omega

/-- The decoder of table words reads the command of the request that is placed for the word. -/
theorem decode_requestOfTableWord {nbits w : Nat} {i : Instr} (decoded : decodeTableWord nbits w = some i) :
    decode (requestOfTableWord nbits w).cmd = .ok i := by
  simp only [decodeTableWord, decodeBytes, bytesOfNat, readDescriptor, wordOfBytes_ofNat] at decoded
  simp only [requestOfTableWord]
  cases legal : decode (BitVec.ofNat 32 (w % 2 ^ nbits)) with
  | error e => simp [legal] at decoded
  | ok j => simpa [legal] using decoded

theorem requestOfTableWord_wellFormed (nbits w : Nat) : (requestOfTableWord nbits w).wellFormed = true := by
  simp [Request.wellFormed, requestOfTableWord]

end Sys2Proof

namespace Sys2Proof.Machine

/-! ## Running the decoded command -/

/-- Settles O43: both ways a request comes to a step lead to its transaction, which is the decoded command. -/
theorem stepRunsTheDecodedCommand : Obligations.StepRunsTheDecodedCommand :=
  ⟨fun _ _ _ flight decoded => (step_of_inFlight flight).trans (transact_of_decode decoded),
    fun _ _ _ _ => step_of_issue_decode⟩

/-- Settles O44: the placed request is in flight, and its command is the one the decoder of table words reads. -/
theorem placedTableWordRunsNext : Obligations.PlacedTableWordRunsNext := fun s nbits w i _ decoded =>
  ⟨stepRunsTheDecodedCommand.1 _ _ i (s.withFetchWord_inFlight nbits w) (decode_requestOfTableWord decoded),
    _, s.withFetchWord_inFlight nbits w, requestOfTableWord_wellFormed nbits w⟩

/-! ## A response as bytes -/

/-- Reading a response's first four bytes gives its status, and what is left is its destination (R69). -/
theorem Response.bytes_injective : Function.Injective Response.bytes := by
  rintro ⟨status, dst⟩ ⟨status', dst'⟩ same
  obtain ⟨words, bytes⟩ := List.append_inj same rfl
  exact congrArg₂ Response.mk (bytesOfWord_injective words) bytes

/-- Settles O50: `STATUS` stands at bytes 0 to 3 and `DST` follows; an error's response is legal, so it has no `DST`. -/
theorem responseBytesOrder : Obligations.ResponseBytesOrder := by
  refine ⟨fun r => ⟨?_, fun k lt => ?_, fun k => ?_, _, _, _, _, rfl, wordOfBytes_bytes r.status⟩,
    fun r q same => Response.bytes_injective same, fun s t r resp flight stepped added failed => ?_⟩
  · simp [Response.bytes]
  · rw [← bytesOfWord_getElem? r.status lt, Response.bytes, List.getElem?_append_left lt]
  · rw [Response.bytes, List.getElem?_append_right (Nat.le_add_right 4 k), bytesOfWord_length, Nat.add_sub_cancel_left]
  · rw [step_of_inFlight flight] at stepped
    obtain ⟨_, ended⟩ := transact_cases flight stepped
    obtain ⟨resp', added', legal⟩ := ended.legal_response
    obtain rfl : resp = resp' := by simpa [added] using added'
    obtain ⟨_, noBytes⟩ := legal.noOutputOnError failed
    simp [Response.bytes, noBytes]

/-! ## Error codes -/

theorem ErrCode.ofBits?_bits (code : ErrCode) : ErrCode.ofBits? code.bits = some code := by
  cases code <;> rfl

/-- The reserved codes are 4 to 15 (R161). -/
theorem ErrCode.ofBits?_eq_none_iff {code : BitVec 4} : ErrCode.ofBits? code = none ↔ 4 ≤ code.toNat := by
  revert code
  decide

/-- Settles O33: the codes by cases, and the `ERR` field of a status word is the code it was made with. -/
theorem errorCodesReadBack : Obligations.ErrorCodesReadBack := by
  refine ⟨ErrCode.ofBits?_bits, ⟨rfl, rfl, rfl, rfl⟩, fun r => ?_, fun ready result err dst => ?_⟩
  · have code : (r.status.extractLsb' 0 4).toNat = r.status.toNat % 16 := by simp
    rw [Response.err?, ErrCode.ofBits?_eq_none_iff, code]
  · rw [Response.err?, statusWord_errField, ErrCode.ofBits?_bits]

end Sys2Proof.Machine

/-! PROOFS. The assembler: which lines it accepts, and the request it makes of one (R70, R71). -/

namespace Sys2Proof.Machine

variable {cmd : Word} {bytes : List Nat} {line : AsmLine}

/-! ## Byte lists -/

/-- The numbers are values of a byte, and the 32-bit `SRC_LEN` can count them (R60, R70). -/
theorem asmBytesWellFormed_iff :
    asmBytesWellFormed bytes = true ↔ (∀ b ∈ bytes, b ≤ 255) ∧ bytes.length < 4294967296 := by
  simp [asmBytesWellFormed, Config.lenWidth, Nat.lt_succ_iff]

theorem asmRequest_wellFormed (fit : asmBytesWellFormed bytes = true) : (asmRequest cmd bytes).wellFormed = true := by
  obtain ⟨_, short⟩ := asmBytesWellFormed_iff.mp fit
  rw [Request.wellFormed_iff, asmRequest, List.length_map, BitVec.toNat_ofNat, Nat.mod_eq_of_lt short]

/-- A number below `2^w` is not cut to `w` bits. -/
theorem toNat_ofNat_of_lt {w n : Nat} (lt : n < 2 ^ w) : (BitVec.ofNat w n).toNat = n := by
  rw [BitVec.toNat_ofNat, Nat.mod_eq_of_lt lt]

/-- No number of the list is cut to a byte. -/
theorem asmRequest_src (fit : asmBytesWellFormed bytes = true) : (asmRequest cmd bytes).src.map BitVec.toNat = bytes := by
  obtain ⟨small, _⟩ := asmBytesWellFormed_iff.mp fit
  have uncut : ∀ b ∈ bytes, (BitVec.toNat ∘ BitVec.ofNat 8) b = id b := fun b member =>
    toNat_ofNat_of_lt (Nat.lt_succ_of_le (small b member))
  rw [asmRequest, List.map_map, List.map_congr_left uncut, List.map_id]

/-! ## Lines -/

theorem assemble_ne_none_iff : assemble line ≠ none ↔ line.wellFormed = true := by
  cases wf : line.wellFormed <;> simp [assemble, wf]

/-- Settles O49: an accepted line is well-formed, so its numbers are kept whole and its command word is an encoding. -/
theorem assembledRequestsAreWellFormed : Obligations.AssembledRequestsAreWellFormed := by
  refine ⟨fun line r assembled => ?_, fun line wf => Option.ne_none_iff_exists'.mp (assemble_ne_none_iff.mpr wf), ?_⟩
  · have wf : line.wellFormed = true := assemble_ne_none_iff.mp (by simp [assembled])
    unfold assemble at assembled
    rw [if_pos wf] at assembled
    obtain rfl := Option.some.inj assembled
    cases line with
    | lutinit => exact ⟨asmRequest_wellFormed rfl, decode_encode _, rfl⟩
    | expand bytes => exact ⟨asmRequest_wellFormed wf, decode_encode _, asmRequest_src wf⟩
    | compact bytes => exact ⟨asmRequest_wellFormed wf, decode_encode _, asmRequest_src wf⟩
    | palchk count bytes =>
      obtain ⟨small, fit⟩ := Bool.and_eq_true_iff.mp wf
      exact ⟨asmRequest_wellFormed fit, ⟨_, decode_encode _, toNat_ofNat_of_lt (of_decide_eq_true small)⟩,
        asmRequest_src fit⟩
    | cmd word0 bytes =>
      obtain ⟨small, fit⟩ := Bool.and_eq_true_iff.mp wf
      exact ⟨asmRequest_wellFormed fit, toNat_ofNat_of_lt (of_decide_eq_true small), asmRequest_src fit⟩
  · simp [assemble_ne_none_iff, AsmLine.wellFormed, asmBytesWellFormed_iff, Config.countWidth, Nat.lt_succ_iff]

end Sys2Proof.Machine

/-! PROOFS. What a transaction depends on and what it writes (R20–R24, R54): the answer is a function of the four persistent
items and the request, and only `LUTINIT` and a reset write them. -/

namespace Sys2Proof.Machine

variable {s t u : State} {r : Request} {i : Instr}

/-! ## The persistent items -/

/-- Two states hold the same four persistent items (R20). -/
structure State.SameBlock (s u : State) : Prop where
  lutReady : u.lutReady = s.lutReady
  lut5 : u.lut5 = s.lut5
  lut6 : u.lut6 = s.lut6
  lut888 : u.lut888 = s.lut888

theorem State.SameBlock.refl (s : State) : s.SameBlock s := ⟨rfl, rfl, rfl, rfl⟩

/-- Good, ready blocks hold the same items: those of R86. -/
theorem State.Inv.sameBlock (inv : s.Inv) (inv' : u.Inv) (ready : s.lutReady = true) (ready' : u.lutReady = true) :
    s.SameBlock u := by
  obtain ⟨table5, table6, table888⟩ := inv.whenReady ready
  obtain ⟨table5', table6', table888'⟩ := inv'.whenReady ready'
  exact ⟨ready'.trans ready.symm, table5'.trans table5.symm, table6'.trans table6.symm, table888'.trans table888.symm⟩

/-! ## The answer to a request -/

/-- A command other than `LUTINIT` only responds, and its response is fixed by the request and the block (R54). -/
theorem exec_responds (flight : s.inFlight = some r) (other : i ≠ .lutinit) (h : exec i s = .next t) :
    ∃ err result dst, ∀ u, s.SameBlock u → u.inFlight = some r → exec i u = .next (u.respond err result dst) := by
  cases i with
  | lutinit => exact absurd rfl other
  | expand =>
    obtain ⟨q, flight', wf, ends⟩ := execExpand_cases h
    obtain rfl : r = q := Option.some.inj (flight.symm.trans flight')
    obtain ⟨notReady, _⟩ | ⟨ready, odd, _⟩ | ⟨ready, even, _, table, _⟩ := ends
    · exact ⟨_, _, _, fun u same flight => execExpand_notReady flight wf (same.lutReady.trans notReady)⟩
    · exact ⟨_, _, _, fun u same flight =>
        execExpand_odd flight wf (same.lutReady.trans ready) (Nat.mod_two_ne_zero.mp odd)⟩
    · exact ⟨_, _, _, fun u same flight =>
        execExpand_even flight wf (same.lutReady.trans ready) even (same.lut888.trans table)⟩
  | compact =>
    obtain ⟨q, flight', wf, ends⟩ := execCompact_cases h
    obtain rfl : r = q := Option.some.inj (flight.symm.trans flight')
    obtain ⟨notReady, _⟩ | ⟨ready, partialPixel, _⟩ | ⟨ready, wholePixels, _, _, table5, table6, _⟩ := ends
    · exact ⟨_, _, _, fun u same flight => execCompact_notReady flight wf (same.lutReady.trans notReady)⟩
    · exact ⟨_, _, _, fun u same flight =>
        execCompact_partialPixel flight wf (same.lutReady.trans ready) partialPixel⟩
    · exact ⟨_, _, _, fun u same flight => execCompact_wholePixels flight wf (same.lutReady.trans ready) wholePixels
        (same.lut5.trans table5) (same.lut6.trans table6)⟩
  | palchk count =>
    obtain ⟨q, flight', wf, ends⟩ := execPalchk_cases h
    obtain rfl : r = q := Option.some.inj (flight.symm.trans flight')
    obtain ⟨notReady, _⟩ | ⟨ready, _⟩ := ends
    · exact ⟨_, _, _, fun u same flight => execPalchk_notReady flight wf (same.lutReady.trans notReady)⟩
    · exact ⟨_, _, _, fun u same flight => execPalchk_ready flight wf (same.lutReady.trans ready)⟩

/-- A transaction that is no `LUTINIT` only responds, and its response is fixed by the request and the block (R54). -/
theorem transact_responds (flight : s.inFlight = some r) (other : decode r.cmd ≠ .ok .lutinit)
    (h : transact r s = .next t) : ∃ err result dst, ∀ u, s.SameBlock u → u.inFlight = some r →
      transact r u = .next (u.respond err result dst) := by
  cases decoded : decode r.cmd with
  | error e =>
    obtain ⟨wf, _⟩ := transact_cases flight h
    exact ⟨_, _, _, fun u _ flight => transact_illegalCmd flight wf decoded⟩
  | ok i =>
    rw [transact_of_decode decoded] at h
    obtain ⟨err, result, dst, responds⟩ := exec_responds flight (fun eq => other (eq ▸ decoded)) h
    exact ⟨err, result, dst, fun u same flight => (transact_of_decode decoded).trans (responds u same flight)⟩

/-- The answer to the request `r` on a block with the items of `s`, whatever else a state holds: one response and no other
change; or, for a `LUTINIT` with no payload and on any block, the tables and one response. -/
inductive FixedAnswer (r : Request) (s : State) : Prop where
  | responds (err : ErrCode) (result : Bool) (dst : List Byte)
      (eq : ∀ u, s.SameBlock u → u.inFlight = some r → transact r u = .next (u.respond err result dst))
  | writesTables (lutinit : r.cmd = 0x00000001#32) (empty : r.srcLen = 0#32)
      (eq : ∀ u, u.inFlight = some r → transact r u = .next (u.loadTables.respond .ok false []))

theorem transact_fixedAnswer (flight : s.inFlight = some r) (h : transact r s = .next t) : FixedAnswer r s := by
  by_cases lutinit : decode r.cmd = .ok .lutinit
  · obtain ⟨wf, _⟩ := transact_cases flight h
    by_cases empty : r.srcLen = 0#32
    · exact .writesTables (decode_eq_lutinit_iff.mp lutinit) empty fun u flight =>
        (transact_of_decode lutinit).trans (execLutinit_withoutPayload flight wf empty)
    · exact .responds _ _ _ fun u _ flight =>
        (transact_of_decode lutinit).trans (execLutinit_withPayload flight wf empty)
  · obtain ⟨err, result, dst, responds⟩ := transact_responds flight lutinit h
    exact .responds err result dst responds

/-! ## What a step writes and reads -/

/-- A transaction leaves the persistent items alone, or is a `LUTINIT` with no payload. -/
theorem transact_sameBlock_or_writesTables (flight : s.inFlight = some r) (h : transact r s = .next t) :
    s.SameBlock t ∨ (r.cmd = 0x00000001#32 ∧ r.srcLen = 0#32 ∧ t = s.loadTables.respond .ok false []) := by
  cases transact_fixedAnswer flight h with
  | responds err result dst eq =>
    obtain rfl := Host.Outcome.next.inj (h.symm.trans (eq s (.refl s) flight))
    exact .inl ⟨rfl, rfl, rfl, rfl⟩
  | writesTables lutinit empty eq =>
    exact .inr ⟨lutinit, empty, Host.Outcome.next.inj (h.symm.trans (eq s flight))⟩

/-- Settles O38: a transaction writes the items only as a `LUTINIT`, and the other steps are resets and the idle step. -/
theorem onlyLutinitAndResetWriteTheTables : Obligations.OnlyLutinitAndResetWriteTheTables := by
  intro s t stepped
  obtain ⟨r, flight, _, done, _⟩ | ⟨_, _, rfl⟩ | ⟨r, rest, idle, plan, _, done, _⟩ | ⟨rest, idle, plan, rfl⟩ :=
    step_cases stepped
  · obtain ⟨ready, table5, table6, table888⟩ | ⟨lutinit, empty, rfl⟩ := transact_sameBlock_or_writesTables flight done
    · exact .inl ⟨ready, table5, table6, table888⟩
    · exact .inr (.inl ⟨⟨r, .inl flight, lutinit, empty⟩, rfl, rfl, rfl, rfl⟩)
  · exact .inl ⟨rfl, rfl, rfl, rfl⟩
  · obtain ⟨ready, table5, table6, table888⟩ | ⟨lutinit, empty, rfl⟩ :=
      transact_sameBlock_or_writesTables (State.accept_inFlight _ r) done
    · exact .inl ⟨ready, table5, table6, table888⟩
    · exact .inr (.inl ⟨⟨r, .inr ⟨idle, by simp [plan]⟩, lutinit, empty⟩, rfl, rfl, rfl, rfl⟩)
  · refine .inr (.inr ⟨idle, ?_, rfl, rfl, rfl, rfl⟩)
    exact plan.imp (fun plan => by simp [plan]) fun ⟨r, plan⟩ => ⟨r, by simp [plan]⟩

/-- Settles O39: the answer is fixed by what the two states share. -/
theorem nothingElsePersists : Obligations.NothingElsePersists := by
  intro s t u r ready table5 table6 table888 flight flight' stepped
  have same : s.SameBlock u := ⟨ready.symm, table5.symm, table6.symm, table888.symm⟩
  rw [step_of_inFlight flight] at stepped
  rw [step_of_inFlight flight']
  cases transact_fixedAnswer flight stepped with
  | responds err result dst eq =>
    obtain rfl := Host.Outcome.next.inj (stepped.symm.trans (eq s (.refl s) flight))
    refine ⟨_, _, eq u same flight', rfl, ?_, same.lutReady, same.lut5, same.lut6, same.lut888⟩
    rw [State.respond_responses, ready]
  | writesTables _ _ eq =>
    obtain rfl := Host.Outcome.next.inj (stepped.symm.trans (eq s flight))
    exact ⟨_, _, eq u flight', rfl, rfl, rfl, rfl, rfl, rfl⟩

/-! ## Conversions -/

/-- Settles O45: a good, ready block answers, and any two of them hold the same items. -/
theorem conversionsArePure : Obligations.ConversionsArePure := by
  intro s u r i inv inv' ready ready' wf other
  obtain ⟨t, done⟩ := exec_answers i (inv.accept r) (State.accept_inFlight s r) wf
  obtain ⟨err, result, dst, responds⟩ := exec_responds (State.accept_inFlight s r) other done
  have same : (s.accept r).SameBlock (u.accept r) := (inv.accept r).sameBlock (inv'.accept r) ready ready'
  refine ⟨⟨statusWord true result err, dst⟩, ?_, ?_⟩
  · rw [responds _ (.refl _) (State.accept_inFlight s r), State.respond, State.accept_lutReady, ready]
    rfl
  · rw [responds _ same (State.accept_inFlight u r), State.respond, State.accept_lutReady, ready']
    rfl

/-- A request that is no `LUTINIT`, issued next on an idle block with the items of a good, ready one, gets the response
that these items fix, and nothing else of the block changes (R54). -/
theorem step_of_issue_responds (inv : s.Inv) (ready : s.lutReady = true) (wf : r.wellFormed = true)
    (other : decode r.cmd ≠ .ok .lutinit) : ∃ resp, ∀ (u : State) (rest : List HostAction), s.SameBlock u →
      u.inFlight = none → u.host = .issue r :: rest →
      step u = .next { u with host := rest, responses := u.responses ++ [resp] } := by
  obtain ⟨t, done⟩ := transact_answers (inv.accept r) (State.accept_inFlight s r) wf
  obtain ⟨err, result, dst, responds⟩ := transact_responds (State.accept_inFlight s r) other done
  refine ⟨⟨statusWord true result err, dst⟩, fun u rest same idle plan => ?_⟩
  have taken : (s.accept r).SameBlock ({ u with host := rest }.accept r) :=
    ⟨same.lutReady, same.lut5, same.lut6, same.lut888⟩
  rw [step_of_issue idle plan, responds _ taken (State.accept_inFlight _ r),
    State.respond_accept_of_idle (s := { u with host := rest }) idle, same.lutReady, ready]

/-- Settles O46: neither request writes the block, so each gets its own response in either order. -/
theorem conversionsCommute : Obligations.ConversionsCommute := by
  intro s r q rest inv ready idle wfR wfQ otherR otherQ
  obtain ⟨respR, stepR⟩ := step_of_issue_responds inv ready wfR otherR
  obtain ⟨respQ, stepQ⟩ := step_of_issue_responds inv ready wfQ otherQ
  have same (plan : List HostAction) (received : List Response) :
      s.SameBlock { s with host := plan, responses := received } := ⟨rfl, rfl, rfl, rfl⟩
  refine ⟨_, _, _, _, respR, respQ, stepR _ _ (same _ _) idle rfl, stepQ _ _ (same _ _) idle rfl,
    stepQ _ _ (same _ _) idle rfl, stepR _ _ (same _ _) idle rfl, ?_, ?_⟩
  · simp
  · simp

end Sys2Proof.Machine

/-! PROOFS. The run of the host's plan: from a good idle block it is carried out action by action, and each request is
answered once, in order (R49, R166). -/

namespace Sys2Proof.Machine

variable {s t : State}

/-- A good block between transactions, whose host keeps its contract. -/
structure State.GoodIdle (s : State) : Prop where
  inv : s.Inv
  contract : s.HostContract
  idle : s.inFlight = none

/-- What the step from `t` to `u` does for the host's action: a request's own transaction and one response, or a reset and
no response. -/
def HostAction.CarriedOut (t u : State) : HostAction → Prop
  | .issue r => step (t.accept r) = .next { u with host := t.host } ∧ ∃ resp, u.responses = t.responses ++ [resp]
  | .abort _ => u.responses = t.responses
  | .assertReset => u.responses = t.responses

theorem HostAction.CarriedOut.responses_length {action : HostAction} (done : action.CarriedOut s t) :
    t.responses.length = s.responses.length + [action].countP HostAction.wantsResponse := by
  cases action with
  | issue r =>
    obtain ⟨_, resp, added⟩ := done
    simp [added, HostAction.wantsResponse]
  | abort r => simp [show t.responses = s.responses from done, HostAction.wantsResponse]
  | assertReset => simp [show t.responses = s.responses from done, HostAction.wantsResponse]

/-- A request's transaction is the same one when the host's plan is left as it was before the request was taken. -/
theorem step_accept_of_transact {r : Request} {rest : List HostAction}
    (h : transact r ({ s with host := rest }.accept r) = .next t) :
    step (s.accept r) = .next { t with host := s.host } := by
  have flight := State.accept_inFlight { s with host := rest } r
  rw [step_of_inFlight (State.accept_inFlight s r)]
  cases transact_fixedAnswer flight h with
  | responds err result dst eq =>
    obtain rfl := Host.Outcome.next.inj (h.symm.trans (eq _ (.refl _) flight))
    exact eq (s.accept r) ⟨rfl, rfl, rfl, rfl⟩ (State.accept_inFlight s r)
  | writesTables _ _ eq =>
    obtain rfl := Host.Outcome.next.inj (h.symm.trans (eq _ flight))
    exact eq (s.accept r) (State.accept_inFlight s r)

/-- One step carries out the first action of the plan and leaves a good idle block. -/
theorem State.GoodIdle.step {action : HostAction} {rest : List HostAction} (good : s.GoodIdle)
    (plan : s.host = action :: rest) :
    ∃ t, Machine.step s = .next t ∧ t.GoodIdle ∧ t.host = rest ∧ action.CarriedOut s t := by
  obtain ⟨t, stepped⟩ := step_answers good.inv good.contract
  obtain ⟨_, whenIdle, _⟩ := hostActsInOrder s t stepped
  have left : t.host = rest := by simpa [plan] using whenIdle good.idle
  refine ⟨t, stepped, ⟨step_keeps_inv good.inv stepped, step_keeps_hostContract good.contract stepped,
    step_inFlight stepped⟩, left, ?_⟩
  cases action with
  | issue r =>
    rw [step_of_issue good.idle plan] at stepped
    obtain ⟨_, ended⟩ := transact_cases (State.accept_inFlight _ r) stepped
    exact ⟨step_accept_of_transact stepped, ended.responses⟩
  | abort r =>
    rw [step_of_reset good.idle (.inr ⟨r, plan⟩)] at stepped
    obtain rfl := Host.Outcome.next.inj stepped
    rfl
  | assertReset =>
    rw [step_of_reset good.idle (.inl plan)] at stepped
    obtain rfl := Host.Outcome.next.inj stepped
    rfl

/-- Step `k` of the run carries out action `k` of the plan. -/
theorem run_carriesOut : ∀ (plan : List HostAction) {s : State}, s.GoodIdle → s.host = plan →
    ∀ (k : Nat) (action : HostAction), plan[k]? = some action → ∃ t u : State, core.run k s = .next t ∧
      core.run (k + 1) s = .next u ∧ t.host = plan.drop k ∧ u.host = plan.drop (k + 1) ∧ action.CarriedOut t u
  | [], _, _, _, _, _, found => by simp at found
  | first :: rest, s, good, host, 0, action, found => by
    obtain rfl : first = action := by simpa using found
    obtain ⟨t, stepped, _, left, done⟩ := good.step host
    exact ⟨s, t, rfl, run_succ stepped, host, left, done⟩
  | first :: rest, s, good, host, k + 1, action, found => by
    obtain ⟨t, stepped, good', left, _⟩ := good.step host
    rw [run_succ stepped, run_succ stepped]
    exact run_carriesOut rest good' left k action (by simpa using found)

/-- After as many steps as the plan has actions, the plan is done and every request of it has been answered. -/
theorem run_completes : ∀ (plan : List HostAction) {s : State}, s.GoodIdle → s.host = plan →
    ∃ t, core.run plan.length s = .next t ∧ t.GoodIdle ∧ t.host = [] ∧
      t.responses.length = s.responses.length + plan.countP HostAction.wantsResponse
  | [], s, good, host => ⟨s, rfl, good, host, rfl⟩
  | first :: rest, s, good, host => by
    obtain ⟨t, stepped, good', left, done⟩ := good.step host
    obtain ⟨u, ran, good'', finished, count⟩ := run_completes rest good' left
    refine ⟨u, (run_succ stepped).trans ran, good'', finished, ?_⟩
    rw [count, done.responses_length, Nat.add_assoc, ← List.countP_append, List.singleton_append]

/-- Settles O48: the run by induction on the plan, each step by `State.GoodIdle.step`. -/
theorem everyRequestIsAnsweredOnce : Obligations.EveryRequestIsAnsweredOnce := by
  intro s inv contract idle
  have good : s.GoodIdle := ⟨inv, contract, idle⟩
  refine ⟨fun k action found => ?_, ?_⟩
  · obtain ⟨t, u, ran, ranOn, hostT, hostU, done⟩ := run_carriesOut s.host good rfl k action found
    refine ⟨t, u, ran, ranOn, hostT, hostU, ?_⟩
    cases action <;> exact done
  · obtain ⟨t, ran, goodT, finished, count⟩ := run_completes s.host good rfl
    exact ⟨t, ran, goodT.inv, finished, goodT.idle, count⟩

end Sys2Proof.Machine

/-! PROOFS. Rounding without ties and the shortcuts that are not the tables (R85, R88), and the properties of the conversions
(R104, R123, R141). -/

namespace Sys2Proof.Machine

variable {s : State} {r : Request}

/-! ## No rounded value is near a tie -/

/-- Over an odd denominator a half-integer is missed by at least half a unit: twice the difference has an odd numerator. -/
theorem distance_from_tie {x : ℚ} {num den : Nat} (odd : Odd den) (quotient : x = num / den) (n : ℤ) :
    1 / (2 * den : ℚ) ≤ |x - (n + 1 / 2)| := by
  have pos : (0 : ℚ) < den := by exact_mod_cast odd.pos
  have oneFraction : x - (n + 1 / 2) = ((2 * num - den * (2 * n + 1) : ℤ) : ℚ) / (2 * den) := by
    rw [quotient]
    push_cast
    field_simp
  have oddNumerator : Odd (2 * (num : ℤ) - den * (2 * n + 1)) :=
    (even_two_mul _).sub_odd (((Int.odd_coe_nat den).mpr odd).mul (odd_two_mul_add_one n))
  have atLeastOne : (1 : ℚ) ≤ |((2 * num - den * (2 * n + 1) : ℤ) : ℚ)| := by
    exact_mod_cast Int.one_le_abs fun zero => Int.not_odd_zero (zero ▸ oddNumerator)
  rw [oneFraction, abs_div, abs_of_pos (by positivity : (0 : ℚ) < 2 * den)]
  gcongr

/-- Without a tie, the only integer within 1/2 is the half-up rounding (R85). -/
theorem eq_roundHalfUp_of_near {num den : Nat} (odd : Odd den) {n : ℤ} (near : |(num : ℚ) / den - n| ≤ 1 / 2) :
    n = roundHalfUp num den := by
  have pos : (0 : ℚ) < den := by exact_mod_cast odd.pos
  obtain ⟨lower, upper⟩ := abs_le.mp near
  have noTie : (num : ℚ) / den ≠ n + 1 / 2 := by
    intro tie
    have missed := distance_from_tie odd tie.symm n
    rw [sub_self, abs_zero] at missed
    exact absurd missed (not_le.mpr (by positivity))
  have below : (num : ℚ) / den < n + 1 / 2 := lt_of_le_of_ne (by linarith) noTie
  rw [roundHalfUp_eq_floor num odd.pos, eq_comm, Int.floor_eq_iff]
  constructor <;> linarith

/-- Settles O13: the four quotients have the odd denominators 255, 85, 31 and 21, the second and the fourth in lowest
terms. -/
theorem roundingHasNoTies : Obligations.RoundingHasNoTies := by
  refine ⟨fun v n => ⟨?_, ?_⟩, fun b n => ?_, fun g n => ?_, fun v n near => ?_, fun v n near => ?_, fun b n near => ?_,
    fun g n near => ?_⟩
  · exact le_of_eq_of_le (by norm_num)
      (distance_from_tie (num := v.toNat * 31) (den := 255) (by decide) (by push_cast; ring) n)
  · exact le_of_eq_of_le (by norm_num)
      (distance_from_tie (num := v.toNat * 21) (den := 85) (by decide) (by push_cast; ring) n)
  · exact le_of_eq_of_le (by norm_num)
      (distance_from_tie (num := b.toNat * 255) (den := 31) (by decide) (by push_cast; ring) n)
  · exact le_of_eq_of_le (by norm_num)
      (distance_from_tie (num := g.toNat * 85) (den := 21) (by decide) (by push_cast; ring) n)
  · rw [q5_toNat_eq_roundHalfUp]
    exact eq_roundHalfUp_of_near (by decide) (by exact_mod_cast near)
  · rw [q6_toNat_eq_roundHalfUp]
    exact eq_roundHalfUp_of_near (by decide) (by exact_mod_cast near)
  · rw [x5_toNat_eq_roundHalfUp]
    exact eq_roundHalfUp_of_near (by decide) (by exact_mod_cast near)
  · rw [x6_toNat_eq_roundHalfUp]
    exact eq_roundHalfUp_of_near (by decide) (by exact_mod_cast near)

/-- Settles O18: the differing fields and the counts are evaluated, input by input. -/
theorem shortcutsAreNotTheTables : Obligations.ShortcutsAreNotTheTables := by
  refine ⟨?_, ?_, ?_, ?_⟩ <;> decide

/-! ## `PALCHK` -/

/-- The verdict depends only on which values occur (R141). -/
theorem allInRange_congr {count : BitVec 16} {src src' : List Byte} (same : ∀ index, index ∈ src ↔ index ∈ src') :
    allInRange count src = allInRange count src' := by
  rw [Bool.eq_iff_iff, allInRange_iff, allInRange_iff]
  simp only [same]

/-- Settles O25: ready or not, the two requests end with the same response. -/
theorem palchkIgnoresOrderAndNumber : Obligations.PalchkIgnoresOrderAndNumber := by
  intro s r q count wfR wfQ same
  have flightR := State.accept_inFlight s r
  have flightQ := State.accept_inFlight s q
  cases ready : s.lutReady with
  | false => exact ⟨_, execPalchk_notReady flightR wfR ready, execPalchk_notReady flightQ wfQ ready⟩
  | true =>
    refine ⟨_, execPalchk_ready flightR wfR ready, (execPalchk_ready flightQ wfQ ready).trans ?_⟩
    rw [allInRange_congr same]
    rfl

/-! ## `EXPAND` -/

/-- An even-length buffer ends with a whole pixel, so the next buffer's pixels follow it. -/
theorem expandBytes_append (lut888 : Lut Rgb888 16) : ∀ a b : List Byte, a.length % 2 = 0 →
    expandBytes lut888 (a ++ b) = expandBytes lut888 a ++ expandBytes lut888 b
  | [], _, _ => rfl
  | [_], _, even => by simp at even
  | lo :: hi :: rest, b, even => by
    have evenRest : rest.length % 2 = 0 := by simpa [Nat.add_assoc] using even
    simp [expandBytes_append lut888 rest b evenRest]

/-- Settles O26: the length is pixel by pixel, and so is the concatenation. -/
theorem expandOfConcatenation : Obligations.ExpandOfConcatenation := by
  intro lut888 a b even
  refine ⟨?_, expandBytes_append lut888 a b even⟩
  rw [expandBytes_length]
  omega

/-- The two bytes of the word of two bytes are these (R41, R42). -/
@[simp] theorem bytes565_word565 (lo hi : Byte) : bytes565 (word565 lo hi) = [lo, hi] := by
  have low := lo.isLt
  simp only [bytes565, List.cons.injEq, and_true]
  constructor
  · apply BitVec.eq_of_toNat_eq
    rw [toNat_field, word565_toNat]
    omega
  · apply BitVec.eq_of_toNat_eq
    rw [toNat_field, word565_toNat]
    omega

/-- Compacting an expanded buffer gives the buffer back, pixel by pixel (R123 item 3). -/
theorem compactBytes_expandBytes : ∀ src : List Byte, src.length % 2 = 0 →
    compactBytes lut5Contents lut6Contents (expandBytes lut888Contents src) = src
  | [], _ => rfl
  | [_], even => by simp at even
  | lo :: hi :: rest, even => by
    have evenRest : rest.length % 2 = 0 := by simpa [Nat.add_assoc] using even
    simp [bytes888_x888, compactBytes_expandBytes rest evenRest]

theorem execExpand_contents (inv : s.Inv) (ready : s.lutReady = true) (wf : r.wellFormed = true)
    (even : r.srcLen.toNat % 2 = 0) : exec .expand (s.accept r) =
      .next ((s.accept r).respond .ok false (expandBytes lut888Contents r.src)) := by
  obtain ⟨_, _, table⟩ := inv.whenReady ready
  exact execExpand_even (State.accept_inFlight s r) wf ready even table

/-- Settles O27: the response carries the expansion, and compacting it gives the payload back. -/
theorem expandIsInjective : Obligations.ExpandIsInjective := by
  intro s t r q inv ready wfR wfQ evenR evenQ doneR doneQ
  rw [execExpand_contents inv ready wfR evenR] at doneR
  rw [execExpand_contents inv ready wfQ evenQ] at doneQ
  have same := congrArg State.responses (Host.Outcome.next.inj (doneR.trans doneQ.symm))
  have expansions : expandBytes lut888Contents r.src = expandBytes lut888Contents q.src := by simpa using same
  rw [← Request.wellFormed_iff.mp wfR] at evenR
  rw [← Request.wellFormed_iff.mp wfQ] at evenQ
  rw [← compactBytes_expandBytes r.src evenR, expansions, compactBytes_expandBytes q.src evenQ]

/-! ## `COMPACT` -/

theorem execCompact_contents (inv : s.Inv) (ready : s.lutReady = true) (wf : r.wellFormed = true)
    (wholePixels : r.srcLen.toNat % 3 = 0) : exec .compact (s.accept r) =
      .next ((s.accept r).respond .ok false (compactBytes lut5Contents lut6Contents r.src)) := by
  obtain ⟨table5, table6, _⟩ := inv.whenReady ready
  exact execCompact_wholePixels (State.accept_inFlight s r) wf ready wholePixels table5 table6

/-- Settles O28: the expansion is made of whole pixels, and compacting it gives the payload back. -/
theorem compactUndoesExpand : Obligations.CompactUndoesExpand := by
  intro s r rest inv ready idle expand wf even plan
  have decoded : decode r.cmd = .ok .expand := by rw [expand]; decide
  have expanded := execExpand_contents (inv.withPlan rest) ready wf even
  refine ⟨expandBytes lut888Contents r.src, _, (step_of_issue_decode idle plan decoded).trans expanded, rfl, ?_, ?_⟩
  · simp [ready, statusWord_success]
  · intro q compact payload wfQ
    have decodedQ : decode q.cmd = .ok .compact := by rw [compact]; decide
    have wholePixels : q.srcLen.toNat % 3 = 0 := by
      rw [← Request.wellFormed_iff.mp wfQ, payload, expandBytes_length]
      omega
    have compacted := execCompact_contents
      (((inv.withPlan rest).accept r).respond .ok false (expandBytes lut888Contents r.src)) ready wfQ wholePixels
    rw [← Request.wellFormed_iff.mp wf] at even
    rw [payload, compactBytes_expandBytes r.src even] at compacted
    refine ⟨_, (step_of_issue_decode rfl rfl decodedQ).trans compacted, ?_⟩
    simp [ready, statusWord_success]

/-- Settles O29: each field of the packed pixel is the quantisation of its own channel. -/
theorem compactIsMonotoneAndLossy : Obligations.CompactIsMonotoneAndLossy := by
  unfold Obligations.CompactIsMonotoneAndLossy
  simp only [compact888_contents, red5_pack565, green6_pack565, blue5_pack565, and_self, and_true]
  exact ⟨fun _ _ _ _ => q5_mono, fun _ _ _ _ => q6_mono, fun _ _ _ _ => q5_mono,
    fun _ _ _ _ _ _ red green blue => ⟨q5_mono red, q6_mono green, q5_mono blue⟩, by decide⟩

end Sys2Proof.Machine
